-- ==== Sys2Proof/Word.lean ====
section
/-! DEFINITION. The word, byte and register-number types of the lc3-vm CORE (00_scope.md R7, R9). -/

namespace Sys2Proof

/-- A register, memory cell, address or instruction word (R7: WORD and ADDR are 16 bits).
Its `+` is the addition modulo 2^16 of R11. -/
abbrev Word := BitVec 16

/-- A character code of the input and output channels (20_memory.md R51, R52). -/
abbrev Byte := BitVec 8

/-- A register number 0..7, which selects R0..R7 directly (30_encoding.md R69). -/
abbrev Reg := Fin 8

end Sys2Proof
end

