-- ==== Sys2Proof/Syntax.lean ====
section
/-! DEFINITION. The instructions: one constructor per row of spec/opcode_table.json, with the fields of
30_encoding.md R63. Don't-care bits are not part of an instruction (R74), except that RTI and RES keep
their whole word, because the fault they raise records it (60_exceptions.md R182; log 13). -/

namespace Sys2Proof

inductive Instr where
  /-- BR: condition mask n z p (bit 2 is n), PCoffset9 (R100). -/
  | br (mask : BitVec 3) (off9 : BitVec 9)
  /-- ADD, register form: DR, SR1, SR2 (R110). -/
  | addReg (dr sr1 sr2 : Reg)
  /-- ADD, immediate form: DR, SR1, imm5 (R111). -/
  | addImm (dr sr1 : Reg) (imm5 : BitVec 5)
  /-- LD: DR, PCoffset9 (R120). -/
  | ld (dr : Reg) (off9 : BitVec 9)
  /-- ST: SR, PCoffset9 (R121). -/
  | st (sr : Reg) (off9 : BitVec 9)
  /-- JSR: PCoffset11 (R140). -/
  | jsr (off11 : BitVec 11)
  /-- JSRR: BaseR (R141). -/
  | jsrr (base : Reg)
  /-- AND, register form: DR, SR1, SR2 (R112). -/
  | andReg (dr sr1 sr2 : Reg)
  /-- AND, immediate form: DR, SR1, imm5 (R113). -/
  | andImm (dr sr1 : Reg) (imm5 : BitVec 5)
  /-- LDR: DR, BaseR, offset6 (R122). -/
  | ldr (dr base : Reg) (off6 : BitVec 6)
  /-- STR: SR, BaseR, offset6 (R123). -/
  | str (sr base : Reg) (off6 : BitVec 6)
  /-- RTI: the fetched word, whose opcode is 8 (R170). -/
  | rti (word : Word)
  /-- NOT: DR, SR (R114). -/
  | not (dr sr : Reg)
  /-- LDI: DR, PCoffset9 (R124). -/
  | ldi (dr : Reg) (off9 : BitVec 9)
  /-- STI: SR, PCoffset9 (R125). -/
  | sti (sr : Reg) (off9 : BitVec 9)
  /-- JMP, and RET when BaseR is R7: BaseR (R142). -/
  | jmp (base : Reg)
  /-- RES: the fetched word, whose opcode is 13 (R171). -/
  | res (word : Word)
  /-- LEA: DR, PCoffset9 (R126). -/
  | lea (dr : Reg) (off9 : BitVec 9)
  /-- TRAP: trapvect8 (R150). -/
  | trap (vect8 : Byte)
deriving DecidableEq, Repr

end Sys2Proof
end

