-- ==== Sys2Proof/WellFormed.lean ====
section
/-! DEFINITION. Which terms of Instr stand for a word of the machine. The field types already bound every
field of 30_encoding.md R63 (a Reg is 0..7, an offset has exactly its width), so the only terms to refuse are
an RTI or a RES whose recorded word does not have that opcode (R73; DESIGN CHOICE, log 13). -/

namespace Sys2Proof

/-- The term is an instruction some word of the machine encodes; bits 15:12 are the opcode (R61). -/
def Instr.wellFormed : Instr → Bool
  | .br _ _ => true
  | .addReg _ _ _ => true
  | .addImm _ _ _ => true
  | .ld _ _ => true
  | .st _ _ => true
  | .jsr _ => true
  | .jsrr _ => true
  | .andReg _ _ _ => true
  | .andImm _ _ _ => true
  | .ldr _ _ _ => true
  | .str _ _ _ => true
  | .rti w => w.extractLsb' 12 4 == 8#4
  | .not _ _ => true
  | .ldi _ _ => true
  | .sti _ _ => true
  | .jmp _ => true
  | .res w => w.extractLsb' 12 4 == 13#4
  | .lea _ _ => true
  | .trap _ => true

end Sys2Proof
end

