-- ==== Sys2Proof/Decode.lean ====
section
/-! DEFINITION. The decoder (30_encoding.md R61 to R63, R71, R72) and, after it, the encoder (R62, R78).
The field positions other than the opcode's are the spec's R62 and R63, which it marks as taken from the LC-3
(UNVERIFIED, log 1). The decoder is total: no word is rejected (R72). -/

namespace Sys2Proof

/-- The opcode of a word: "`opcode = word >> 12` (top 4 bits)" (30_encoding.md R61). -/
def opcodeOf (w : Word) : BitVec 4 := w.extractLsb' 12 4

/-- The register number in the three bits of `w` whose lowest is bit `lo` (R69). -/
def regField (w : Word) (lo : Nat) : Reg := (w.extractLsb' lo 3).toFin

/-- DR or SR, bits 11:9 (R63). -/
def fieldR (w : Word) : Reg := regField w 9

/-- SR1, SR or BaseR, bits 8:6 (R63). -/
def fieldB (w : Word) : Reg := regField w 6

/-- SR2, bits 2:0 (R63). -/
def fieldT (w : Word) : Reg := regField w 0

/-- PCoffset9, bits 8:0 (R66). -/
def fieldOff9 (w : Word) : BitVec 9 := w.extractLsb' 0 9

/-- PCoffset11, bits 10:0 (R67). -/
def fieldOff11 (w : Word) : BitVec 11 := w.extractLsb' 0 11

/-- offset6, bits 5:0 (R65). -/
def fieldOff6 (w : Word) : BitVec 6 := w.extractLsb' 0 6

/-- imm5, bits 4:0 (R64). -/
def fieldImm5 (w : Word) : BitVec 5 := w.extractLsb' 0 5

/-- The condition mask n z p, bits 11:9 (R70; UNVERIFIED, log 2). -/
def fieldMask (w : Word) : BitVec 3 := w.extractLsb' 9 3

/-- trapvect8, bits 7:0 (R68). -/
def fieldVect8 (w : Word) : Byte := w.extractLsb' 0 8

/-- The mode bit of ADD and AND, bit 5: set for the immediate form (R71). -/
def immMode (w : Word) : Bool := w.getLsbD 5

/-- The mode bit of opcode 4, bit 11: set for JSR, clear for JSRR (R71). -/
def jsrMode (w : Word) : Bool := w.getLsbD 11

/-- ADD, by its mode bit (R110, R111). -/
def decodeAdd (w : Word) : Instr :=
  if immMode w then .addImm (fieldR w) (fieldB w) (fieldImm5 w) else .addReg (fieldR w) (fieldB w) (fieldT w)

/-- AND, by its mode bit (R112, R113). -/
def decodeAnd (w : Word) : Instr :=
  if immMode w then .andImm (fieldR w) (fieldB w) (fieldImm5 w) else .andReg (fieldR w) (fieldB w) (fieldT w)

/-- Opcode 4, by its mode bit (R140, R141). -/
def decodeJsr (w : Word) : Instr :=
  if jsrMode w then .jsr (fieldOff11 w) else .jsrr (fieldB w)

/-- The instruction a word encodes: the opcode map of R61. The last arm is opcode 15, the one value left. -/
def decode (w : Word) : Instr :=
  match opcodeOf w with
  | 0#4 => .br (fieldMask w) (fieldOff9 w)
  | 1#4 => decodeAdd w
  | 2#4 => .ld (fieldR w) (fieldOff9 w)
  | 3#4 => .st (fieldR w) (fieldOff9 w)
  | 4#4 => decodeJsr w
  | 5#4 => decodeAnd w
  | 6#4 => .ldr (fieldR w) (fieldB w) (fieldOff6 w)
  | 7#4 => .str (fieldR w) (fieldB w) (fieldOff6 w)
  | 8#4 => .rti w
  | 9#4 => .not (fieldR w) (fieldB w)
  | 10#4 => .ldi (fieldR w) (fieldOff9 w)
  | 11#4 => .sti (fieldR w) (fieldOff9 w)
  | 12#4 => .jmp (fieldB w)
  | 13#4 => .res w
  | 14#4 => .lea (fieldR w) (fieldOff9 w)
  | _ => .trap (fieldVect8 w)

/-- The 16-bit word in the `nbits` bits of `w`, the bits above them zero. -/
def tableWord (nbits w : Nat) : Word := BitVec.ofNat 16 (w % 2 ^ nbits)

/-- The instruction read from bits numbered as spec/opcode_table.json numbers them. Every instruction is one
16-bit word (R60), so more than 16 bits are no instruction, and fewer leave the bits above them zero. -/
def decodeTableWord (nbits w : Nat) : Option Instr :=
  if nbits ≤ 16 then some (decode (tableWord nbits w)) else none

/-- A register number as its three bits. -/
def regBits (r : Reg) : BitVec 3 := BitVec.ofFin r

/-- A field at its place: its lowest bit at bit `lo` of the word. -/
def place {n : Nat} (f : BitVec n) (lo : Nat) : Word := f.setWidth 16 <<< lo

/-- The word of an instruction: the encoding functions of R78, its don't-care bits as R78 gives them (zero, but
ones in NOT). RTI and RES are the word they carry. -/
def encode : Instr → Word
  | .br mask off9 => 0x0000#16 ||| place mask 9 ||| place off9 0
  | .addReg dr sr1 sr2 => 0x1000#16 ||| place (regBits dr) 9 ||| place (regBits sr1) 6 ||| place (regBits sr2) 0
  | .addImm dr sr1 imm5 => 0x1020#16 ||| place (regBits dr) 9 ||| place (regBits sr1) 6 ||| place imm5 0
  | .ld dr off9 => 0x2000#16 ||| place (regBits dr) 9 ||| place off9 0
  | .st sr off9 => 0x3000#16 ||| place (regBits sr) 9 ||| place off9 0
  | .jsr off11 => 0x4800#16 ||| place off11 0
  | .jsrr base => 0x4000#16 ||| place (regBits base) 6
  | .andReg dr sr1 sr2 => 0x5000#16 ||| place (regBits dr) 9 ||| place (regBits sr1) 6 ||| place (regBits sr2) 0
  | .andImm dr sr1 imm5 => 0x5020#16 ||| place (regBits dr) 9 ||| place (regBits sr1) 6 ||| place imm5 0
  | .ldr dr base off6 => 0x6000#16 ||| place (regBits dr) 9 ||| place (regBits base) 6 ||| place off6 0
  | .str sr base off6 => 0x7000#16 ||| place (regBits sr) 9 ||| place (regBits base) 6 ||| place off6 0
  | .rti word => word
  | .not dr sr => 0x903F#16 ||| place (regBits dr) 9 ||| place (regBits sr) 6
  | .ldi dr off9 => 0xA000#16 ||| place (regBits dr) 9 ||| place off9 0
  | .sti sr off9 => 0xB000#16 ||| place (regBits sr) 9 ||| place off9 0
  | .jmp base => 0xC000#16 ||| place (regBits base) 6
  | .res word => word
  | .lea dr off9 => 0xE000#16 ||| place (regBits dr) 9 ||| place off9 0
  | .trap vect8 => 0xF000#16 ||| place vect8 0

/-! ### The aliases of R77, each with its expansion -/

/-- RET: JMP R7. -/
def Instr.ret : Instr := .jmp 7

/-- NOP: BR with mask 000. -/
def Instr.nop : Instr := .br 0#3 0#9

/-- BR with no flags named: BRnzp. -/
def Instr.brAlways (off9 : BitVec 9) : Instr := .br 7#3 off9

/-- GETC: TRAP x20. -/
def Instr.getc : Instr := .trap 0x20#8

/-- OUT: TRAP x21. -/
def Instr.out : Instr := .trap 0x21#8

/-- PUTS: TRAP x22. -/
def Instr.puts : Instr := .trap 0x22#8

/-- IN: TRAP x23. -/
def Instr.inChar : Instr := .trap 0x23#8

/-- PUTSP: TRAP x24. -/
def Instr.putsp : Instr := .trap 0x24#8

/-- HALT: TRAP x25. -/
def Instr.halt : Instr := .trap 0x25#8

/-- The bits a decoded instruction leaves out of account, one set bit each: the table of R74. RTI and RES
ignore bits 11:0 in what they do, but the word their fault records holds them (R182), so none is dropped here. -/
def dontCare : Instr → Word
  | .br _ _ => 0x0000#16
  | .addReg _ _ _ => 0x0018#16
  | .addImm _ _ _ => 0x0000#16
  | .ld _ _ => 0x0000#16
  | .st _ _ => 0x0000#16
  | .jsr _ => 0x0000#16
  | .jsrr _ => 0x063F#16
  | .andReg _ _ _ => 0x0018#16
  | .andImm _ _ _ => 0x0000#16
  | .ldr _ _ _ => 0x0000#16
  | .str _ _ _ => 0x0000#16
  | .rti _ => 0x0000#16
  | .not _ _ => 0x003F#16
  | .ldi _ _ => 0x0000#16
  | .sti _ _ => 0x0000#16
  | .jmp _ => 0x0E3F#16
  | .res _ => 0x0000#16
  | .lea _ _ => 0x0000#16
  | .trap _ => 0x0F00#16

end Sys2Proof
end

