-- ==== Sys2Proof/Config.lean ====
section
/-! DEFINITION. The parameters the spec leaves open (00_scope.md R8). They are plain data, so that State can
hold them, every statement can quantify over them, and a run can be evaluated at any instance of them. -/

namespace Sys2Proof

/-- The open parameters of R8. The engine reads them and no step writes them (log 3, 4 and 20). -/
structure Params where
  /-- KBSR_ADDR, the address of the keyboard status cell (10_state.md R27). -/
  kbsrAddr : Word
  /-- KBDR_ADDR, the address of the keyboard data cell (10_state.md R28). -/
  kbdrAddr : Word
  /-- IN_PROMPT, the bytes TRAP x23 emits before it waits (45_trap.md R155). -/
  inPrompt : List Byte
  /-- HALT_NOTICE, the bytes TRAP x25 emits before the machine halts (45_trap.md R157). -/
  haltNotice : List Byte
deriving DecidableEq, Repr

/-- What the spec requires of the two addresses: they differ (10_state.md R28; 90_conflicts.md C1). -/
abbrev Params.distinct (p : Params) : Prop := p.kbsrAddr ≠ p.kbdrAddr

end Sys2Proof
end

