-- ==== Sys2Proof/Machine/Types.lean ====
section
/-! DEFINITION. The types of the state's parts: condition code, phase, memory (10_state.md R23, R29, R30). -/

namespace Sys2Proof.Machine

/-- The condition code: NONE, P, Z or N (10_state.md R23). Its 3-bit code is Cond.bits in Flags. -/
inductive Cond where
  /-- NONE: unset, possible only before the first flag-affecting instruction. -/
  | none
  /-- P, POSITIVE. -/
  | p
  /-- Z, ZERO. -/
  | z
  /-- N, NEGATIVE. -/
  | n
deriving DecidableEq, Repr

/-- Which service routine waits for a character (10_state.md R30). -/
inductive InputKind where
  /-- GETC, TRAP x20: no echo. -/
  | getc
  /-- IN, TRAP x23: echoes the character. -/
  | inEcho
deriving DecidableEq, Repr

/-- The engine's phase (10_state.md R30; UNVERIFIED, log 10). -/
inductive Phase where
  /-- RUNNING: fetching and executing instructions. -/
  | running
  /-- WAIT_INPUT(kind): a GETC or IN routine is blocked until a character is available. -/
  | waitInput (kind : InputKind)
  /-- STRING_OUT(addr, packed): PUTS (not packed) or PUTSP (packed) is emitting the string at `addr` onwards. -/
  | stringOut (addr : Word) (packed : Bool)
  /-- HALTED: terminal, reached by TRAP x25. -/
  | halted
  /-- FAULTED(opcode, word, addr): terminal, an undefined opcode was fetched (60_exceptions.md R182). -/
  | faulted (opcode : BitVec 4) (word addr : Word)
  /-- ABORTED: terminal, the host ended the run (60_exceptions.md R192). -/
  | aborted
deriving DecidableEq, Repr

/-- Memory: the 16-bit cells that differ from 0x0000, as (address, value) pairs in rising order of address
(Memory.wf in Ops). The spec's smallest addressable unit is the 16-bit cell (20_memory.md R40), so a pair
holds a cell, not a byte (log 15). -/
abbrev Memory := List (Nat × Word)

end Sys2Proof.Machine
end

