-- ==== Sys2Proof/Machine/ResetValues.lean ====
section
/-! DEFINITION. The values reset uses: the one the spec gives (PC_START) and, for what the spec leaves as a
draw or a parameter, the values State.reset takes (log 3, 4, 5, 6 and 12). State.resetWith takes every
other choice. -/

namespace Sys2Proof.Machine

/-- PC_START, "fixed convention: 0x3000" (00_scope.md R7; 10_state.md R33). -/
def pcStart : Word := 0x3000#16

/-- What an unlisted memory cell reads as: memory is "cleared/zero-initialized" (10_state.md R33; 70 R210). -/
def unlistedCell : Word := 0x0000#16

/-- Everything reset leaves open (10_state.md R33; 00_scope.md R8): the parameters, REG_INIT, COND_INIT, and
the characters the host has already supplied. -/
structure Draws where
  params : Params
  regInit : Vector Word 8
  condInit : Cond
  inq : List Byte
deriving DecidableEq, Repr

/-- PRESUMED (log 3 and 4): the LC-3's device addresses and the two texts the spec names as admitted instances
(00_scope.md R8; 92_eei_decisions.md D3, D8): "Enter a character: " and "HALT". -/
def resetParams : Params where
  kbsrAddr := 0xFE00#16
  kbdrAddr := 0xFE02#16
  inPrompt := [0x45#8, 0x6E#8, 0x74#8, 0x65#8, 0x72#8, 0x20#8, 0x61#8, 0x20#8, 0x63#8, 0x68#8, 0x61#8, 0x72#8,
    0x61#8, 0x63#8, 0x74#8, 0x65#8, 0x72#8, 0x3A#8, 0x20#8]
  haltNotice := [0x48#8, 0x41#8, 0x4C#8, 0x54#8]

/-- DESIGN CHOICE (log 5, 6 and 12): registers zero, cond NONE, no character supplied yet. -/
def resetDraws : Draws where
  params := resetParams
  regInit := Vector.replicate 8 0x0000#16
  condInit := .none
  inq := []

end Sys2Proof.Machine
end

