-- ==== Sys2Proof/Machine/State.lean ====
section
/-! DEFINITION. The machine's state, its reasons to stop, and reset (10_state.md R20 to R33). -/

namespace Sys2Proof.Machine

/-- The state of 10_state.md section 8, with the open parameters of 00_scope.md R8 beside it. -/
structure State where
  /-- R0..R7 (R20). -/
  regs : Vector Word 8
  /-- The program counter (R22). -/
  pc : Word
  /-- The condition code (R23). -/
  cond : Cond
  /-- The 65536 cells, KBSR and KBDR among them (R27, R28, R29). -/
  mem : Memory
  /-- The engine's phase (R30). -/
  phase : Phase
  /-- INQ: the pending characters, oldest first (R31). -/
  inq : List Byte
  /-- OUTQ: the bytes emitted so far, in order (R31). -/
  outq : List Byte
  /-- The open parameters (00_scope.md R8), which no step writes (DESIGN CHOICE, log 20). -/
  params : Params
deriving DecidableEq, Repr

/-- The running flag: "true while the machine should keep fetching; set false only by the halt trap"; it is
true in every phase except HALTED (R30; DESIGN CHOICE, log 19). -/
def State.runningFlag (s : State) : Bool := s.phase != .halted

/-- Why `step` has no next state (40_cycle.md R94, R96; DESIGN CHOICE, log 16). No meaning of an instruction raises one. -/
inductive Fault where
  /-- Raised by step in phase HALTED: the run has ended successfully and the engine never steps again (R94).
  Safe: the model stops where the spec says there is no step. -/
  | halted
  /-- Raised by step in phase FAULTED: an undefined opcode ended the run; the record is the phase's (R182).
  Safe: the model stops where the spec says there is no step. -/
  | undefinedOpcode (opcode : BitVec 4) (word addr : Word)
  /-- Raised by step in phase ABORTED: the host ended the run (R192). Safe, as above. -/
  | aborted
  /-- Raised by step in phase WAIT_INPUT while INQ is empty: the engine is stuck until the host appends a
  character (R160). Safe: the spec says there is no step, and State.inputArrival lifts the wait. -/
  | waitingForInput (kind : InputKind)
deriving DecidableEq, Repr

/-- Why an instruction would have no meaning. -/
inductive Refusal where
  /-- Raised by no arm of exec: every instruction of the table has its meaning. It would be raised by the arm
  of an instruction not modelled yet. Safe: the model stops. -/
  | notModelled (mnemonic : String)
deriving DecidableEq, Repr

/-- What a step or an instruction's meaning answers. -/
abbrev Result := Host.Outcome State Fault Refusal

/-- The machine after steps 1, 3 and 4 of reset, no image loaded, for given draws (70_reset_and_hazards.md R210;
10_state.md R33). The loader's step 2 is State.load. -/
def State.resetWith (d : Draws) : State where
  regs := d.regInit
  pc := pcStart
  cond := d.condInit
  mem := []
  phase := .running
  inq := d.inq
  outq := []
  params := d.params

/-- The machine right after reset, at the draws resetDraws names (log 3, 4, 5, 6 and 12). -/
def State.reset : State := State.resetWith resetDraws

end Sys2Proof.Machine
end

