-- ==== Sys2Proof/Machine/Ops.lean ====
section
/-! DEFINITION. The named operations on memory, registers, the character channels and the phase, and taking
the one exception the machine has. There is no return from an exception (60_exceptions.md R189). -/

namespace Sys2Proof.Machine

/-! ### Memory cells (20_memory.md R40, R41) -/

/-- The value at key `k`, or what an unlisted cell reads as. -/
def Memory.lookup : Memory → Nat → Word
  | [], _ => unlistedCell
  | (a, v) :: m, k => if a = k then v else Memory.lookup m k

/-- Every entry but those at key `k`. -/
def Memory.erase : Memory → Nat → Memory
  | [], _ => []
  | (a, v) :: m, k => if a = k then Memory.erase m k else (a, v) :: Memory.erase m k

/-- The entry (k, v) put before the first entry with a larger key. -/
def Memory.insert : Memory → Nat → Word → Memory
  | [], k, v => [(k, v)]
  | (a, x) :: m, k, v => if k < a then (k, v) :: (a, x) :: m else (a, x) :: Memory.insert m k v

/-- The cell at address `a`; every 16-bit address is valid (R41). No device has a part in this: it is the
plain read of the array. -/
def Memory.read (m : Memory) (a : Word) : Word := Memory.lookup m a.toNat

/-- The array with `v` stored at `a` (R43), in canonical form. -/
def Memory.write (m : Memory) (a v : Word) : Memory :=
  if v = unlistedCell then Memory.erase m a.toNat else Memory.insert (Memory.erase m a.toNat) a.toNat v

/-- Keys rise strictly from `lo`, stay below 65536, and no entry holds what an unlisted cell reads as. -/
def Memory.wfFrom : Nat → Memory → Bool
  | _, [] => true
  | lo, (a, v) :: m => decide (lo ≤ a) && decide (a < 65536) && decide (v ≠ unlistedCell) && Memory.wfFrom (a + 1) m

/-- The canonical form, in which equal memories are equal lists (DESIGN CHOICE, log 15). -/
def Memory.wf (m : Memory) : Bool := Memory.wfFrom 0 m

/-! ### Registers (10_state.md R20) -/

/-- x[r] (00_scope.md R12). -/
def State.reg (s : State) (r : Reg) : Word := s.regs.get r

/-- x[r] <- v (00_scope.md R12). No register is hard-wired (R20). -/
def State.setReg (s : State) (r : Reg) (v : Word) : State := { s with regs := s.regs.set r.val v r.isLt }

/-- pc <- target (00_scope.md R12). -/
def State.setPc (s : State) (target : Word) : State := { s with pc := target }

/-- R7, the link register of JSR and JSRR (R21). -/
def linkReg : Reg := 7

/-- R0, the register of the service routines (R21). -/
def ioReg : Reg := 0

/-! ### The memory primitives (20_memory.md R42, R43) -/

/-- zext_16 of a character code (00_scope.md R10; UNVERIFIED, log 8). -/
def charWord (c : Byte) : Word := c.setWidth 16

/-- KBSR after a poll that found a character: `1<<15` (R42). -/
def kbsrReady : Word := 0x8000#16

/-- The non-blocking poll of R42: a pending character is consumed into KBDR and KBSR becomes 0x8000; with none
pending KBSR becomes 0 and KBDR keeps its value (R45). -/
def State.poll (s : State) : State :=
  match s.inq with
  | [] => { s with mem := s.mem.write s.params.kbsrAddr 0x0000#16 }
  | c :: rest =>
    { s with
      inq := rest
      mem := (s.mem.write s.params.kbdrAddr (charWord c)).write s.params.kbsrAddr kbsrReady }

/-- The state a read of address `a` leaves: polled when `a` is KBSR_ADDR, else unchanged (R42, R44). -/
def State.touch (s : State) (a : Word) : State := if a = s.params.kbsrAddr then s.poll else s

/-- MemRead(a, 1): the value read and the state it leaves (R42). The only read primitive. -/
def State.memRead (s : State) (a : Word) : Word × State := ((s.touch a).mem.read a, s.touch a)

/-- MemWrite(a, 1, v): a plain store at every address (R43). -/
def State.memWrite (s : State) (a v : Word) : State := { s with mem := s.mem.write a v }

/-! ### Fetch (40_cycle.md R90) -/

/-- w <- MemRead(pc, 1), then pc <- pc + 1 modulo 2^16. -/
def State.fetch (s : State) : Word × State :=
  ((s.memRead s.pc).1, (s.memRead s.pc).2.setPc (s.pc + 1#16))

/-! ### The output channel (20_memory.md R51) -/

/-- EmitString(bs): append each byte to OUTQ, in order. -/
def State.emitString (s : State) (bs : List Byte) : State := { s with outq := s.outq ++ bs }

/-- Emit(b): append one byte to OUTQ. -/
def State.emit (s : State) (b : Byte) : State := s.emitString [b]

/-- Bits 7:0 of a word, what a character output emits of a 16-bit code (R51; UNVERIFIED, log 8). -/
def lowByte (v : Word) : Byte := v.extractLsb' 0 8

/-- Bits 15:8 of a word (45_trap.md R159). -/
def highByte (v : Word) : Byte := v.extractLsb' 8 8

/-! ### The phase (10_state.md R30) and the exception (60_exceptions.md R182) -/

/-- phase <- p. -/
def State.enter (s : State) (p : Phase) : State := { s with phase := p }

/-- raise UndefinedOpcode(opcode, word, addr), taken after the fetch: phase <- FAULTED(opcode, word, pc - 1) and
nothing else changes; control goes nowhere, since there is no handler (R182, R188). -/
def State.raiseUndefinedOpcode (s : State) (opcode : BitVec 4) (word : Word) : State :=
  s.enter (.faulted opcode word (s.pc - 1#16))

end Sys2Proof.Machine
end

