-- ==== Sys2Proof/Machine/Flags.lean ====
section
/-! DEFINITION. The condition code: its 3-bit code (10_state.md R23), SetCC (R24), and the BR test
(41_branch.md R100). No carry or overflow is recorded anywhere (00_scope.md R11). -/

namespace Sys2Proof.Machine

/-- The 3-bit code: N in bit 2, Z in bit 1, P in bit 0, NONE all clear (R23; UNVERIFIED, log 2). -/
def Cond.bits : Cond → BitVec 3
  | .none => 0b000#3
  | .p => 0b001#3
  | .z => 0b010#3
  | .n => 0b100#3

/-- "ZERO iff the written value is 0, NEGATIVE iff bit 15 is set, POSITIVE otherwise" (R24). -/
def condOf (v : Word) : Cond :=
  if v = 0x0000#16 then .z else if v.getLsbD 15 then .n else .p

/-- SetCC(v) (R24). -/
def State.setCC (s : State) (v : Word) : State := { s with cond := condOf v }

/-- x[DR] <- v, then SetCC of the value just stored: the end of each of the seven flag-affecting instructions
(R24, R25). -/
def State.setRegCC (s : State) (dr : Reg) (v : Word) : State :=
  (s.setReg dr v).setCC ((s.setReg dr v).reg dr)

/-- "mask AND current condition code ≠ 0" (41_branch.md R100; log 2). -/
def State.branchTaken (s : State) (mask : BitVec 3) : Bool := (mask &&& s.cond.bits) != 0b000#3

end Sys2Proof.Machine
end

