-- ==== Sys2Proof/Machine/Operands.lean ====
section
/-! DEFINITION. Every operand form: sign-extended immediates and offsets (30_encoding.md R64 to R67) and the
effective addresses (43_load_store.md R127). All sums wrap modulo 2^16 (20_memory.md R50). -/

namespace Sys2Proof.Machine

/-- sext_16 of a field: "sign bit is the field's own most-significant bit, extension fills with 1s if set, 0s
otherwise" (00_scope.md R10). -/
def sext {n : Nat} (f : BitVec n) : Word := f.signExtend 16

/-- pc + sext_16(offset), pc being the incremented pc (R66, R67, R127). -/
def State.pcRelative {n : Nat} (s : State) (off : BitVec n) : Word := s.pc + sext off

/-- x[BaseR] + sext_16(offset6), not scaled (R65, R127). -/
def State.baseOffset (s : State) (base : Reg) (off6 : BitVec 6) : Word := s.reg base + sext off6

end Sys2Proof.Machine
end

