-- ==== Sys2Proof/Machine/Arithmetic.lean ====
section
/-! DEFINITION. ADD, AND and NOT (42_arithmetic.md). Addition is modulo 2^16 and signals nothing (R115). -/

namespace Sys2Proof.Machine

/-- ADD, register form (R110). -/
def execAddReg (dr sr1 sr2 : Reg) (s : State) : Result := .next (s.setRegCC dr (s.reg sr1 + s.reg sr2))

/-- ADD, immediate form (R111). -/
def execAddImm (dr sr1 : Reg) (imm5 : BitVec 5) (s : State) : Result := .next (s.setRegCC dr (s.reg sr1 + sext imm5))

/-- AND, register form (R112). -/
def execAndReg (dr sr1 sr2 : Reg) (s : State) : Result := .next (s.setRegCC dr (s.reg sr1 &&& s.reg sr2))

/-- AND, immediate form (R113). -/
def execAndImm (dr sr1 : Reg) (imm5 : BitVec 5) (s : State) : Result := .next (s.setRegCC dr (s.reg sr1 &&& sext imm5))

/-- NOT (R114). -/
def execNot (dr sr : Reg) (s : State) : Result := .next (s.setRegCC dr (~~~ s.reg sr))

end Sys2Proof.Machine
end

