-- ==== Sys2Proof/Machine/Branch.lean ====
section
/-! DEFINITION. BR (41_branch.md). As in every family file, a meaning runs after the fetch, so `pc` is already the
address of the next word (00_scope.md R13; log 23). -/

namespace Sys2Proof.Machine

/-- BR (R100): if (mask AND cond) ≠ 0 then pc <- pc + off. -/
def execBr (mask : BitVec 3) (off9 : BitVec 9) (s : State) : Result :=
  .next (if s.branchTaken mask then s.setPc (s.pcRelative off9) else s)

end Sys2Proof.Machine
end

