-- ==== Sys2Proof/Machine/Jump.lean ====
section
/-! DEFINITION. JSR, JSRR and JMP, which is RET when its base is R7 (44_jump.md). -/

namespace Sys2Proof.Machine

/-- x[7] <- pc: the return address, the word after the call (R140, R141). -/
def State.link (s : State) : State := s.setReg linkReg s.pc

/-- JSR (R140). -/
def execJsr (off11 : BitVec 11) (s : State) : Result := .next (s.link.setPc (s.pcRelative off11))

/-- JSRR (R141): R7 is written first, and the base register is read after it (90_conflicts.md C3), so JSRR R7
continues at the next instruction. -/
def execJsrr (base : Reg) (s : State) : Result := .next (s.link.setPc (s.link.reg base))

/-- JMP (R142). -/
def execJmp (base : Reg) (s : State) : Result := .next (s.setPc (s.reg base))

end Sys2Proof.Machine
end

