-- ==== Sys2Proof/Machine/LoadStore.lean ====
section
/-! DEFINITION. LD, ST, LDR, STR, LDI, STI and LEA (43_load_store.md). Every read is State.memRead, which polls the
keyboard at KBSR_ADDR. The order of effects is that of 70_reset_and_hazards.md R217. -/

namespace Sys2Proof.Machine

/-- DR <- MemRead(a, 1), then SetCC: the end of every load, its address computed from the old registers. -/
def State.loadFrom (s : State) (dr : Reg) (a : Word) : State := (s.memRead a).2.setRegCC dr (s.memRead a).1

/-- LD (R120). -/
def execLd (dr : Reg) (off9 : BitVec 9) (s : State) : Result := .next (s.loadFrom dr (s.pcRelative off9))

/-- ST (R121). -/
def execSt (sr : Reg) (off9 : BitVec 9) (s : State) : Result := .next (s.memWrite (s.pcRelative off9) (s.reg sr))

/-- LDR (R122). -/
def execLdr (dr base : Reg) (off6 : BitVec 6) (s : State) : Result := .next (s.loadFrom dr (s.baseOffset base off6))

/-- STR (R123). -/
def execStr (sr base : Reg) (off6 : BitVec 6) (s : State) : Result :=
  .next (s.memWrite (s.baseOffset base off6) (s.reg sr))

/-- LDI (R124): the pointer is read first, and the target is read in the state that read leaves. -/
def execLdi (dr : Reg) (off9 : BitVec 9) (s : State) : Result :=
  .next ((s.memRead (s.pcRelative off9)).2.loadFrom dr (s.memRead (s.pcRelative off9)).1)

/-- STI (R125): the pointer is read first, then the register is stored at it. -/
def execSti (sr : Reg) (off9 : BitVec 9) (s : State) : Result :=
  .next ((s.memRead (s.pcRelative off9)).2.memWrite (s.memRead (s.pcRelative off9)).1 (s.reg sr))

/-- LEA (R126): no memory access, so no poll; it sets the condition code (90_conflicts.md C4). -/
def execLea (dr : Reg) (off9 : BitVec 9) (s : State) : Result := .next (s.setRegCC dr (s.pcRelative off9))

end Sys2Proof.Machine
end

