-- ==== Sys2Proof/Machine/Trap.lean ====
section
/-! DEFINITION. TRAP, its six service routines, and the later steps of the routines that wait or emit a string
(45_trap.md). TRAP saves nothing: it writes neither R7 nor pc (R150; 90_conflicts.md C5), and no routine writes
the condition code (R161; C6). -/

namespace Sys2Proof.Machine

/-- GETC (R152): wait for a character; completed by State.waitInputStep. -/
def State.trapGetc (s : State) : State := s.enter (.waitInput .getc)

/-- OUT (R153): emit bits 7:0 of R0. -/
def State.trapOut (s : State) : State := s.emit (lowByte (s.reg ioReg))

/-- PUTS (R154): emit the string at R0, one character a cell; carried on by State.stringOutStep. -/
def State.trapPuts (s : State) : State := s.enter (.stringOut (s.reg ioReg) false)

/-- IN (R155): emit the prompt, then wait for a character, which is echoed. -/
def State.trapIn (s : State) : State := (s.emitString s.params.inPrompt).enter (.waitInput .inEcho)

/-- PUTSP (R156): emit the string at R0, two characters a cell. -/
def State.trapPutsp (s : State) : State := s.enter (.stringOut (s.reg ioReg) true)

/-- HALT (R157): emit the notice, then halt. -/
def State.trapHalt (s : State) : State := (s.emitString s.params.haltNotice).enter .halted

/-- The trap dispatcher, "a flat mapping from 8-bit vector to one of six routines" (R151); an unmapped vector is a
no-op (R158). -/
def State.serviceRoutine (s : State) (vect8 : Byte) : State :=
  if vect8 = 0x20#8 then s.trapGetc
  else if vect8 = 0x21#8 then s.trapOut
  else if vect8 = 0x22#8 then s.trapPuts
  else if vect8 = 0x23#8 then s.trapIn
  else if vect8 = 0x24#8 then s.trapPutsp
  else if vect8 = 0x25#8 then s.trapHalt
  else s

/-- TRAP (R150). -/
def execTrap (vect8 : Byte) (s : State) : Result := .next (s.serviceRoutine vect8)

/-- The bytes one non-zero string cell emits: the low byte, and for PUTSP the high byte when it is not zero
(R159). -/
def cellBytes (packed : Bool) (v : Word) : List Byte :=
  if packed && highByte v != 0x00#8 then [lowByte v, highByte v] else [lowByte v]

/-- The STRING_OUT step (R159): read one cell (polling at KBSR_ADDR; 90_conflicts.md C7); a zero cell ends the
routine, any other is emitted and the address advances modulo 2^16 (UNVERIFIED, log 9). -/
def State.stringOutStep (s : State) (a : Word) (packed : Bool) : Result :=
  .next
    (if (s.memRead a).1 = 0x0000#16 then (s.memRead a).2.enter .running
     else ((s.memRead a).2.emitString (cellBytes packed (s.memRead a).1)).enter (.stringOut (a + 1#16) packed))

/-- The echo: IN emits the character, GETC emits nothing (R160). -/
def echoBytes (kind : InputKind) (c : Byte) : List Byte :=
  match kind with
  | .getc => []
  | .inEcho => [c]

/-- The WAIT_INPUT step (R160): with a character pending, it is taken into R0; with none there is no step, a
stuck state the host lifts by appending to INQ (60_exceptions.md R198; log 16). -/
def State.waitInputStep (s : State) (kind : InputKind) : Result :=
  match s.inq with
  | [] => .fault (.waitingForInput kind)
  | c :: rest =>
    .next (((({ s with inq := rest } : State).setReg ioReg (charWord c)).emitString (echoBytes kind c)).enter .running)

end Sys2Proof.Machine
end

