-- ==== Sys2Proof/Machine/Undefined.lean ====
section
/-! DEFINITION. RTI and RES, the two undefined opcodes (46_undefined.md): each takes the exception of
60_exceptions.md R182, a next state in phase FAULTED. -/

namespace Sys2Proof.Machine

/-- RTI (R170): raise UndefinedOpcode(8, w, pc - 1). -/
def execRti (word : Word) (s : State) : Result := .next (s.raiseUndefinedOpcode 8#4 word)

/-- RES (R171): raise UndefinedOpcode(13, w, pc - 1). -/
def execRes (word : Word) (s : State) : Result := .next (s.raiseUndefinedOpcode 13#4 word)

end Sys2Proof.Machine
end

