-- ==== Sys2Proof/Machine/Step.lean ====
section
/-! DEFINITION. The engine's step, by phase (40_cycle.md R94), and a word placed where the next step fetches. -/

namespace Sys2Proof.Machine

/-- EngineStep (R94). A terminal phase, and WAIT_INPUT with no character pending, have no step: a named fault
says which (log 16). -/
def step (s : State) : Host.Outcome State Fault Refusal :=
  match s.phase with
  | .running => exec (decode s.fetch.1) s.fetch.2
  | .waitInput kind => s.waitInputStep kind
  | .stringOut a packed => s.stringOutStep a packed
  | .halted => .fault .halted
  | .faulted opcode word addr => .fault (.undefinedOpcode opcode word addr)
  | .aborted => .fault .aborted

/-- Where withFetchWord places the word: at pc, but at the next cell when pc is KBSR_ADDR, whose fetch polls the
keyboard and so cannot fetch a word placed there (R90; DESIGN CHOICE, log 17). -/
def State.fetchPlace (s : State) : Word := if s.pc = s.params.kbsrAddr then s.pc + 1#16 else s.pc

/-- `s` with the instruction word in the cell the next step fetches, in phase RUNNING: what the loader of
70_reset_and_hazards.md R211 does for one word (log 17). -/
def State.withFetchWord (s : State) (nbits w : Nat) : State :=
  ((s.setPc s.fetchPlace).memWrite s.fetchPlace (tableWord nbits w)).enter .running

end Sys2Proof.Machine
end

