-- ==== Sys2Proof/Machine/Environment.lean ====
section
/-! DEFINITION. What the host may do to the machine, and when (60_exceptions.md R191, R192, R199;
70_reset_and_hazards.md R211). None of it is part of `step`: the host acts between two steps (R186; DESIGN CHOICE,
log 14). -/

namespace Sys2Proof.Machine

/-- HALTED, FAULTED and ABORTED are terminal (10_state.md R30). -/
def Phase.terminal : Phase → Bool
  | .running => false
  | .waitInput _ => false
  | .stringOut _ _ => false
  | .halted => true
  | .faulted _ _ _ => true
  | .aborted => true

/-- Image words stored at consecutive addresses from `origin`. -/
def Memory.place : Memory → Word → List Word → Memory
  | m, _, [] => m
  | m, origin, w :: image => Memory.place (m.write origin w) (origin + 1#16) image

/-- load (R199, R211), done before the first step: the image at its origin, every other cell as it was. An image
that runs past 0xFFFF is not described (91_not_in_source.md N10), so it has no answer (DESIGN CHOICE, log 18). -/
def State.load (s : State) (origin : Word) (image : List Word) : Option State :=
  if origin.toNat + image.length ≤ 65536 then some { s with mem := s.mem.place origin image } else none

/-- start (R199): pc <- 0x3000 and phase <- RUNNING, whatever the image's origin (90_conflicts.md C8). -/
def State.start (s : State) : State := (s.setPc pcStart).enter .running

/-- Reset and boot (70_reset_and_hazards.md R210): the draws, the loader's image, and start. -/
def State.boot (d : Draws) (origin : Word) (image : List Word) : Option State :=
  ((State.resetWith d).load origin image).map State.start

/-- input arrival (R199): one code appended to INQ, in any phase but the terminal ones. -/
def State.inputArrival (s : State) (c : Byte) : Option State :=
  if s.phase.terminal then none else some { s with inq := s.inq ++ [c] }

/-- abort (R192): phase <- ABORTED with no other change, in any phase but the terminal ones. -/
def State.abort (s : State) : Option State :=
  if s.phase.terminal then none else some (s.enter .aborted)

/-- output (R199): the bytes of OUTQ that a host which has already taken `taken` of them takes next, in order.
OUTQ stays the record of every byte emitted (R31; log 12). -/
def State.outputFrom (s : State) (taken : Nat) : List Byte := s.outq.drop taken

/-- The port in_avail (40_cycle.md R97): INQ is not empty. -/
def State.inAvail (s : State) : Bool := !s.inq.isEmpty

/-- The port fault (40_cycle.md R97): opcode, word and address, present in phase FAULTED only. -/
def State.faultPort (s : State) : Option (BitVec 4 × Word × Word) :=
  match s.phase with
  | .running => none
  | .waitInput _ => none
  | .stringOut _ _ => none
  | .halted => none
  | .faulted opcode word addr => some (opcode, word, addr)
  | .aborted => none

/-- inspect (40_cycle.md R97, 60_exceptions.md R196): registers, pc, cond and memory, readable after the run, whichever
way it ended; after HALTED, R199's row, among them (DEDUCED, log 24). -/
def State.inspect (s : State) : Option (Vector Word 8 × Word × Cond × Memory) :=
  if s.phase.terminal then some (s.regs, s.pc, s.cond, s.mem) else none

/-- One move at a step boundary: the engine's, or one of the two the host may make during a run (R191, R199). -/
inductive Move where
  | engine
  | input (c : Byte)
  | abort
deriving DecidableEq, Repr

/-- The state a move leads to, or none where it has no move (R94, R192, R199). -/
def Move.apply (m : Move) (s : State) : Option State :=
  match m with
  | .engine =>
    match step s with
    | .next t => some t
    | .fault _ => none
    | .refused _ => none
  | .input c => s.inputArrival c
  | .abort => s.abort

/-- The state after a schedule of moves, or none where one of them has no move. -/
def runMoves : List Move → State → Option State
  | [], s => some s
  | m :: ms, s =>
    match m.apply s with
    | some t => runMoves ms t
    | none => none

end Sys2Proof.Machine
end

