-- ==== Sys2Proof/Safety.lean ====
section
/-! DEFINITION. What counts as a safe run and how a run ends (60_exceptions.md R198), the invariant of the machine,
and the terms the statements use: frames, the sign class of a value, what a read does, what an instruction
may write. None of it is used by the machine. -/

namespace Sys2Proof.Machine

/-! ### The invariant and the runs -/

/-- Memory is in canonical form and the two device cells are distinct (10_state.md R28). -/
abbrev State.inv (s : State) : Prop := s.mem.wf = true ∧ s.params.distinct

/-- A state some schedule of engine and host moves leads to, from some reset (R199: claims hold for every
schedule; 10_state.md R33: and for every draw). -/
def Reachable (t : State) : Prop :=
  ∃ (d : Draws) (origin : Word) (image : List Word) (s : State) (ms : List Move),
    d.params.distinct ∧ State.boot d origin image = some s ∧ runMoves ms s = some t

/-- `k` steps of the engine alone, stopping at the first that does not answer a next state (the machine of
Host/Core.lean run for `k` steps; Laws/Step proves it). -/
def runFor : Nat → State → Result
  | 0, s => .next s
  | k + 1, s =>
    match step s with
    | .next t => runFor k t
    | .fault r => .fault r
    | .refused r => .refused r

/-! ### The ends of a run (60_exceptions.md R198) -/

/-- Final and successful: the program executed TRAP x25. -/
def State.endedWell (s : State) : Prop := s.phase = .halted

/-- An undefined opcode was fetched. -/
def State.endedByFault (s : State) : Prop := ∃ opcode word addr, s.phase = .faulted opcode word addr

/-- The host ended the run. -/
def State.endedByHost (s : State) : Prop := s.phase = .aborted

/-- Stuck: waiting on a host that has supplied no input. -/
def State.stuck (s : State) : Prop := (∃ kind, s.phase = .waitInput kind) ∧ s.inq = []

/-- An infinite execution: `ex k` is the state after the first `k` of the moves, each of which the state admits. -/
def IsExecution (moves : Nat → Move) (ex : Nat → State) : Prop := ∀ k, (moves k).apply (ex k) = some (ex (k + 1))

/-- Under a schedule of host and engine moves, the engine steps again and again (weak fairness, 92_eei_decisions.md D12):
it is never done with its steps. -/
def EngineKeepsStepping (moves : Nat → Move) : Prop := ∀ k, ∃ j, k ≤ j ∧ moves j = .engine

/-- A hang: "an infinite execution" in which the engine never stops stepping. RUNNING covers its sub-states (10_state.md
R30), so a wait that an arriving character ends may occur in it. -/
def Hang (moves : Nat → Move) (ex : Nat → State) : Prop := IsExecution moves ex ∧ EngineKeepsStepping moves

/-- A hang in the row's own words, "RUNNING or STRING_OUT for ever": one that, from some step boundary on, is in no other
phase. -/
def HangOutsideWaits (moves : Nat → Move) (ex : Nat → State) : Prop :=
  Hang moves ex ∧ ∃ n, ∀ k, n ≤ k → (ex k).phase = .running ∨ ∃ a packed, (ex k).phase = .stringOut a packed

/-- Some schedule makes a hang of the run from `s`. -/
def State.mayHang (s : State) : Prop := ∃ moves ex, ex 0 = s ∧ Hang moves ex

/-- A hang without the host: the engine alone always has a further step. -/
def State.hangs (s : State) : Prop := ∀ k : Nat, ∃ t, runFor k s = .next t

/-- A safe state is one no undefined opcode has ended. -/
def State.safe (s : State) : Prop := ¬ s.endedByFault

/-! ### Frames -/

/-- Every register but those listed holds what it held. -/
def RegsBut (rs : List Reg) (s t : State) : Prop := ∀ r, r ∉ rs → t.reg r = s.reg r

/-- Every memory cell but those listed reads as before. -/
def CellsBut (xs : List Word) (s t : State) : Prop := ∀ a, a ∉ xs → t.mem.read a = s.mem.read a

/-- The pending input and the emitted output are as before. -/
def ChannelsKept (s t : State) : Prop := t.inq = s.inq ∧ t.outq = s.outq

/-- The phase and the parameters are as before. -/
def ControlKept (s t : State) : Prop := t.phase = s.phase ∧ t.params = s.params

/-! ### Values and reads -/

/-- `c` is the sign class of `v`: "ZERO iff the written value is 0, NEGATIVE iff bit 15 is set, POSITIVE
otherwise — and exactly one flag is set" (10_state.md R24). -/
def SignClass (v : Word) (c : Cond) : Prop :=
  (c = .z ↔ v = 0#16) ∧ (c = .n ↔ v.getLsbD 15 = true) ∧ (c = .p ↔ v ≠ 0#16 ∧ v.getLsbD 15 = false)

/-- What reading address `a` in state `s` yields (`v`) and does to memory and the pending input (`t`), as
20_memory.md R42 says it, without the model's own read. -/
def ReadOutcome (s : State) (a v : Word) (t : State) : Prop :=
  (a ≠ s.params.kbsrAddr → v = s.mem.read a ∧ t.inq = s.inq ∧ CellsBut [] s t) ∧
  (a = s.params.kbsrAddr → s.inq = [] →
    v = 0#16 ∧ t.inq = [] ∧ t.mem.read s.params.kbsrAddr = 0#16 ∧ CellsBut [s.params.kbsrAddr] s t) ∧
  (∀ c rest, a = s.params.kbsrAddr → s.inq = c :: rest →
    v = 0x8000#16 ∧ t.inq = rest ∧ t.mem.read s.params.kbsrAddr = 0x8000#16 ∧
    (s.params.distinct → t.mem.read s.params.kbdrAddr = c.zeroExtend 16) ∧
    CellsBut [s.params.kbsrAddr, s.params.kbdrAddr] s t)

/-! ### What an instruction may write -/

/-- The destination register of each of the seven flag-affecting instructions (10_state.md R25). -/
def flagDest : Instr → Option Reg
  | .br _ _ => none
  | .addReg dr _ _ => some dr
  | .addImm dr _ _ => some dr
  | .ld dr _ => some dr
  | .st _ _ => none
  | .jsr _ => none
  | .jsrr _ => none
  | .andReg dr _ _ => some dr
  | .andImm dr _ _ => some dr
  | .ldr dr _ _ => some dr
  | .str _ _ _ => none
  | .rti _ => none
  | .not dr _ => some dr
  | .ldi dr _ => some dr
  | .sti _ _ => none
  | .jmp _ => none
  | .res _ => none
  | .lea dr _ => some dr
  | .trap _ => none

/-- The registers an instruction writes: its destination, or R7 for a call (10_state.md R21). -/
def destRegs : Instr → List Reg
  | .br _ _ => []
  | .addReg dr _ _ => [dr]
  | .addImm dr _ _ => [dr]
  | .ld dr _ => [dr]
  | .st _ _ => []
  | .jsr _ => [7]
  | .jsrr _ => [7]
  | .andReg dr _ _ => [dr]
  | .andImm dr _ _ => [dr]
  | .ldr dr _ _ => [dr]
  | .str _ _ _ => []
  | .rti _ => []
  | .not dr _ => [dr]
  | .ldi dr _ => [dr]
  | .sti _ _ => []
  | .jmp _ => []
  | .res _ => []
  | .lea dr _ => [dr]
  | .trap _ => []

/-- BR, JSR, JSRR and JMP, the instructions that write pc (10_state.md R22). -/
def writesPc : Instr → Bool
  | .br _ _ => true
  | .addReg _ _ _ => false
  | .addImm _ _ _ => false
  | .ld _ _ => false
  | .st _ _ => false
  | .jsr _ => true
  | .jsrr _ => true
  | .andReg _ _ _ => false
  | .andImm _ _ _ => false
  | .ldr _ _ _ => false
  | .str _ _ _ => false
  | .rti _ => false
  | .not _ _ => false
  | .ldi _ _ => false
  | .sti _ _ => false
  | .jmp _ => true
  | .res _ => false
  | .lea _ _ => false
  | .trap _ => false

/-- The addresses an instruction reads in state `s`, in order, computed as its meaning computes them
(20_memory.md R40). -/
def readAddrs : Instr → State → List Word
  | .br _ _, _ => []
  | .addReg _ _ _, _ => []
  | .addImm _ _ _, _ => []
  | .ld _ off9, s => [s.pcRelative off9]
  | .st _ _, _ => []
  | .jsr _, _ => []
  | .jsrr _, _ => []
  | .andReg _ _ _, _ => []
  | .andImm _ _ _, _ => []
  | .ldr _ base off6, s => [s.baseOffset base off6]
  | .str _ _ _, _ => []
  | .rti _, _ => []
  | .not _ _, _ => []
  | .ldi _ off9, s => [s.pcRelative off9, (s.memRead (s.pcRelative off9)).1]
  | .sti _ off9, s => [s.pcRelative off9]
  | .jmp _, _ => []
  | .res _, _ => []
  | .lea _ _, _ => []
  | .trap _, _ => []

/-- The address an instruction stores to in state `s`, computed as its meaning computes it (20_memory.md R40). -/
def storeAddr : Instr → State → Option Word
  | .br _ _, _ => none
  | .addReg _ _ _, _ => none
  | .addImm _ _ _, _ => none
  | .ld _ _, _ => none
  | .st _ off9, s => some (s.pcRelative off9)
  | .jsr _, _ => none
  | .jsrr _, _ => none
  | .andReg _ _ _, _ => none
  | .andImm _ _ _, _ => none
  | .ldr _ _ _, _ => none
  | .str _ base off6, s => some (s.baseOffset base off6)
  | .rti _, _ => none
  | .not _ _, _ => none
  | .ldi _ _, _ => none
  | .sti _ off9, s => some (s.memRead (s.pcRelative off9)).1
  | .jmp _, _ => none
  | .res _, _ => none
  | .lea _ _, _ => none
  | .trap _, _ => none

end Sys2Proof.Machine
end

