-- ==== Sys2Proof/Certificates/Slice0/Obligations.lean ====
section
/-! DEFINITION. The statements for the provers, from the numbered rules of spec/. A result statement about an
instruction says that exec answers a next state, what that state holds, and its frame; `s` is the state after the
fetch (00_scope.md R13). The vocabulary (RegsBut, CellsBut, ReadOutcome, SignClass …) is Safety's. A docstring that
says "log n" names the choice a clause rests on, the spec's own decision or the model's (notes/assumptions/n.md). -/

open Sys2Proof Sys2Proof.Machine

/-! ### Encoding -/

/-- R62, R63, R72, R78: decoding the encoding of a well-formed instruction gives it back, every operand at every
value. The field positions are D1's (log 1). -/
def Obligations.DecodeOfEncodeIsIdentity : Prop :=
  ∀ i : Instr, i.wellFormed = true → decode (encode i) = i

/-- R62, R72, R74: encoding what a word decodes to gives the word back, but for its don't-care bits (log 1 and 7). -/
def Obligations.EncodeOfDecodeKeepsEveryNamedBit : Prop :=
  ∀ w : Word, (decode w).wellFormed = true ∧
    encode (decode w) &&& ~~~ dontCare (decode w) = w &&& ~~~ dontCare (decode w)

/-- R74: two words that differ in don't-care bits alone are the same instruction; a word of opcode 8 or 13 faults
whatever its bits 11:0 hold (the fault's record differs in the word alone; log 7). -/
def Obligations.DontCareBitsAreIgnored : Prop :=
  (∀ w v : Word, (w ^^^ v) &&& ~~~ dontCare (decode w) = 0#16 → decode v = decode w) ∧
  (∀ (w : Word) (s : State), w.extractLsb' 12 4 = 8#4 →
    exec (decode w) s = .next { s with phase := .faulted 8#4 w (s.pc - 1#16) }) ∧
  (∀ (w : Word) (s : State), w.extractLsb' 12 4 = 13#4 →
    exec (decode w) s = .next { s with phase := .faulted 13#4 w (s.pc - 1#16) })

/-- R73: the illegal encodings are exactly 0x8000..0x8FFF and 0xD000..0xDFFF: they cause a fault, which is
unrecoverable (no step follows it), and every other word, run in phase RUNNING, completes without a fault. -/
def Obligations.IllegalEncodingsAreExactlyOpcodes8And13 : Prop :=
  ∀ (w : Word) (s : State), s.phase = .running → ∃ t, exec (decode w) s = .next t ∧
    (t.endedByFault ↔ (0x8000 ≤ w.toNat ∧ w.toNat ≤ 0x8FFF) ∨ (0xD000 ≤ w.toNat ∧ w.toNat ≤ 0xDFFF)) ∧
    (t.endedByFault → ¬ ∃ u, step t = .next u)

/-- R78 and the worked examples: one word of each family, written out, decodes to its instruction (log 1). -/
def Obligations.SampleWordsDecode : Prop :=
  decode 0x0402#16 = .br 2#3 2#9 ∧ decode 0x1283#16 = .addReg 1 2 3 ∧ decode 0x103F#16 = .addImm 0 0 31#5 ∧
  decode 0x92BF#16 = .not 1 2 ∧ decode 0x33FE#16 = .st 1 510#9 ∧ decode 0x62BD#16 = .ldr 1 2 61#6 ∧
  decode 0x4810#16 = .jsr 16#11 ∧ decode 0x41C0#16 = .jsrr 7 ∧ decode 0xC1C0#16 = .jmp 7 ∧
  decode 0xF325#16 = .trap 0x25#8 ∧ decode 0x8FFF#16 = .rti 0x8FFF#16 ∧ decode 0xDEAD#16 = .res 0xDEAD#16

/-- R10: sign extension of an n-bit field keeps bits n-1..0, copies bit n-1 into bits 15..n, and the widened value is the
field's signed value; zero extension fills with zeros. Then the ranges of the widths the instructions use. -/
def Obligations.FieldsExtendToTheirSignedValue : Prop :=
  (∀ (n : Nat) (f : BitVec n), n ≤ 16 → (sext f).toInt = f.toInt ∧
    ∀ k, k < 16 → (sext f).getLsbD k = if k < n then f.getLsbD k else f.getLsbD (n - 1)) ∧
  (∀ c : Byte, (charWord c).toNat = c.toNat) ∧
  (∀ f : BitVec 5, -16 ≤ (sext f).toInt ∧ (sext f).toInt ≤ 15) ∧
  (∀ f : BitVec 6, -32 ≤ (sext f).toInt ∧ (sext f).toInt ≤ 31) ∧
  (∀ f : BitVec 9, -256 ≤ (sext f).toInt ∧ (sext f).toInt ≤ 255) ∧
  (∀ f : BitVec 11, -1024 ≤ (sext f).toInt ∧ (sext f).toInt ≤ 1023)

/-! ### Arithmetic and logic (42_arithmetic.md) -/

/-- R110. The decode clause rests on the field positions (log 1). -/
def Obligations.AddRegisterAddsModulo : Prop :=
  (∀ w : Word, w.extractLsb' 12 4 = 1#4 → w.getLsbD 5 = false →
    decode w = .addReg (w.extractLsb' 9 3).toFin (w.extractLsb' 6 3).toFin (w.extractLsb' 0 3).toFin) ∧
  ∀ (dr sr1 sr2 : Reg) (s : State), ∃ t, exec (.addReg dr sr1 sr2) s = .next t ∧
    (t.reg dr).toNat = ((s.reg sr1).toNat + (s.reg sr2).toNat) % 65536 ∧ SignClass (t.reg dr) t.cond ∧
    RegsBut [dr] s t ∧ t.pc = s.pc ∧ CellsBut [] s t ∧ ChannelsKept s t ∧ ControlKept s t

/-- R111. The decode clause rests on the field positions (log 1). -/
def Obligations.AddImmediateAddsModulo : Prop :=
  (∀ w : Word, w.extractLsb' 12 4 = 1#4 → w.getLsbD 5 = true →
    decode w = .addImm (w.extractLsb' 9 3).toFin (w.extractLsb' 6 3).toFin (w.extractLsb' 0 5)) ∧
  ∀ (dr sr1 : Reg) (imm5 : BitVec 5) (s : State), ∃ t, exec (.addImm dr sr1 imm5) s = .next t ∧
    t.reg dr = s.reg sr1 + imm5.signExtend 16 ∧ SignClass (t.reg dr) t.cond ∧
    RegsBut [dr] s t ∧ t.pc = s.pc ∧ CellsBut [] s t ∧ ChannelsKept s t ∧ ControlKept s t

/-- R112. The decode clause rests on the field positions (log 1). -/
def Obligations.AndRegisterIsBitwise : Prop :=
  (∀ w : Word, w.extractLsb' 12 4 = 5#4 → w.getLsbD 5 = false →
    decode w = .andReg (w.extractLsb' 9 3).toFin (w.extractLsb' 6 3).toFin (w.extractLsb' 0 3).toFin) ∧
  ∀ (dr sr1 sr2 : Reg) (s : State), ∃ t, exec (.andReg dr sr1 sr2) s = .next t ∧
    (∀ k, (t.reg dr).getLsbD k = ((s.reg sr1).getLsbD k && (s.reg sr2).getLsbD k)) ∧ SignClass (t.reg dr) t.cond ∧
    RegsBut [dr] s t ∧ t.pc = s.pc ∧ CellsBut [] s t ∧ ChannelsKept s t ∧ ControlKept s t

/-- R113. The decode clause rests on the field positions (log 1). -/
def Obligations.AndImmediateIsBitwise : Prop :=
  (∀ w : Word, w.extractLsb' 12 4 = 5#4 → w.getLsbD 5 = true →
    decode w = .andImm (w.extractLsb' 9 3).toFin (w.extractLsb' 6 3).toFin (w.extractLsb' 0 5)) ∧
  ∀ (dr sr1 : Reg) (imm5 : BitVec 5) (s : State), ∃ t, exec (.andImm dr sr1 imm5) s = .next t ∧
    t.reg dr = s.reg sr1 &&& imm5.signExtend 16 ∧ SignClass (t.reg dr) t.cond ∧
    RegsBut [dr] s t ∧ t.pc = s.pc ∧ CellsBut [] s t ∧ ChannelsKept s t ∧ ControlKept s t

/-- R114. The decode clause rests on the field positions (log 1). -/
def Obligations.NotComplements : Prop :=
  (∀ w : Word, w.extractLsb' 12 4 = 9#4 →
    decode w = .not (w.extractLsb' 9 3).toFin (w.extractLsb' 6 3).toFin) ∧
  ∀ (dr sr : Reg) (s : State), ∃ t, exec (.not dr sr) s = .next t ∧
    (t.reg dr).toNat = 65535 - (s.reg sr).toNat ∧ SignClass (t.reg dr) t.cond ∧
    RegsBut [dr] s t ∧ t.pc = s.pc ∧ CellsBut [] s t ∧ ChannelsKept s t ∧ ControlKept s t

/-! ### Loads, stores, LEA (43_load_store.md) -/

/-- R120. The decode clause rests on the field positions (log 1), a polled character on its zero extension (log 8). -/
def Obligations.LdLoadsPcRelative : Prop :=
  (∀ w : Word, w.extractLsb' 12 4 = 2#4 → decode w = .ld (w.extractLsb' 9 3).toFin (w.extractLsb' 0 9)) ∧
  ∀ (dr : Reg) (off9 : BitVec 9) (s : State), ∃ t, exec (.ld dr off9) s = .next t ∧
    ReadOutcome s (s.pc + off9.signExtend 16) (t.reg dr) t ∧ SignClass (t.reg dr) t.cond ∧
    RegsBut [dr] s t ∧ t.pc = s.pc ∧ t.outq = s.outq ∧ ControlKept s t

/-- R121. The decode clause rests on the field positions (log 1). -/
def Obligations.StStoresPcRelative : Prop :=
  (∀ w : Word, w.extractLsb' 12 4 = 3#4 → decode w = .st (w.extractLsb' 9 3).toFin (w.extractLsb' 0 9)) ∧
  ∀ (sr : Reg) (off9 : BitVec 9) (s : State), ∃ t, exec (.st sr off9) s = .next t ∧
    t.mem.read (s.pc + off9.signExtend 16) = s.reg sr ∧ CellsBut [s.pc + off9.signExtend 16] s t ∧
    RegsBut [] s t ∧ t.pc = s.pc ∧ t.cond = s.cond ∧ ChannelsKept s t ∧ ControlKept s t

/-- R122: the address uses the old base, also when DR is BaseR. The decode clause rests on the field positions (log 1), a
polled character on its zero extension (log 8). -/
def Obligations.LdrLoadsBaseOffset : Prop :=
  (∀ w : Word, w.extractLsb' 12 4 = 6#4 →
    decode w = .ldr (w.extractLsb' 9 3).toFin (w.extractLsb' 6 3).toFin (w.extractLsb' 0 6)) ∧
  ∀ (dr base : Reg) (off6 : BitVec 6) (s : State), ∃ t, exec (.ldr dr base off6) s = .next t ∧
    ReadOutcome s (s.reg base + off6.signExtend 16) (t.reg dr) t ∧ SignClass (t.reg dr) t.cond ∧
    RegsBut [dr] s t ∧ t.pc = s.pc ∧ t.outq = s.outq ∧ ControlKept s t

/-- R123. The decode clause rests on the field positions (log 1). -/
def Obligations.StrStoresBaseOffset : Prop :=
  (∀ w : Word, w.extractLsb' 12 4 = 7#4 →
    decode w = .str (w.extractLsb' 9 3).toFin (w.extractLsb' 6 3).toFin (w.extractLsb' 0 6)) ∧
  ∀ (sr base : Reg) (off6 : BitVec 6) (s : State), ∃ t, exec (.str sr base off6) s = .next t ∧
    t.mem.read (s.reg base + off6.signExtend 16) = s.reg sr ∧ CellsBut [s.reg base + off6.signExtend 16] s t ∧
    RegsBut [] s t ∧ t.pc = s.pc ∧ t.cond = s.cond ∧ ChannelsKept s t ∧ ControlKept s t

/-- R124: the pointer is read first (State.memRead, whose outcome StatusReadPolls states), then the target in the
state that read leaves. The decode clause rests on the field positions (log 1), a polled character on its zero extension
(log 8). -/
def Obligations.LdiLoadsThroughPointer : Prop :=
  (∀ w : Word, w.extractLsb' 12 4 = 10#4 → decode w = .ldi (w.extractLsb' 9 3).toFin (w.extractLsb' 0 9)) ∧
  ∀ (dr : Reg) (off9 : BitVec 9) (s : State), ∃ t, exec (.ldi dr off9) s = .next t ∧
    ReadOutcome (s.memRead (s.pc + off9.signExtend 16)).2 (s.memRead (s.pc + off9.signExtend 16)).1 (t.reg dr) t ∧
    SignClass (t.reg dr) t.cond ∧ RegsBut [dr] s t ∧ t.pc = s.pc ∧ t.outq = s.outq ∧ ControlKept s t

/-- R125: the pointer is read first, then the register is stored at it; no register changes. Where the pointer's
cell is not KBSR, every cell but the one stored to is as before; where it is, KBSR and KBDR may differ too. The decode
clause rests on the field positions (log 1). -/
def Obligations.StiStoresThroughPointer : Prop :=
  (∀ w : Word, w.extractLsb' 12 4 = 11#4 → decode w = .sti (w.extractLsb' 9 3).toFin (w.extractLsb' 0 9)) ∧
  ∀ (sr : Reg) (off9 : BitVec 9) (s : State), ∃ t, exec (.sti sr off9) s = .next t ∧
    t.mem.read (s.memRead (s.pc + off9.signExtend 16)).1 = s.reg sr ∧
    CellsBut [(s.memRead (s.pc + off9.signExtend 16)).1] (s.memRead (s.pc + off9.signExtend 16)).2 t ∧
    (s.pc + off9.signExtend 16 ≠ s.params.kbsrAddr →
      (s.memRead (s.pc + off9.signExtend 16)).1 = s.mem.read (s.pc + off9.signExtend 16) ∧
      CellsBut [s.mem.read (s.pc + off9.signExtend 16)] s t ∧ t.inq = s.inq) ∧
    (s.pc + off9.signExtend 16 = s.params.kbsrAddr →
      CellsBut [(s.memRead s.params.kbsrAddr).1, s.params.kbsrAddr, s.params.kbdrAddr] s t ∧ t.inq = s.inq.tail) ∧
    RegsBut [] s t ∧ t.pc = s.pc ∧ t.cond = s.cond ∧ t.outq = s.outq ∧ ControlKept s t

/-- R126: no memory access, so no poll, and the flags are set from the address. The decode clause rests on the field
positions (log 1). -/
def Obligations.LeaLoadsTheAddress : Prop :=
  (∀ w : Word, w.extractLsb' 12 4 = 14#4 → decode w = .lea (w.extractLsb' 9 3).toFin (w.extractLsb' 0 9)) ∧
  ∀ (dr : Reg) (off9 : BitVec 9) (s : State), ∃ t, exec (.lea dr off9) s = .next t ∧
    t.reg dr = s.pc + off9.signExtend 16 ∧ SignClass (t.reg dr) t.cond ∧
    RegsBut [dr] s t ∧ t.pc = s.pc ∧ CellsBut [] s t ∧ ChannelsKept s t ∧ ControlKept s t

/-! ### Branch and jumps (41_branch.md, 44_jump.md) -/

/-- R100: taken exactly when the mask bit of the current flag is set (n tests N, z tests Z, p tests P; never when cond
is NONE); BR changes pc alone. The field positions and the order of the mask bits are D1's and D2's (log 1 and 2). -/
def Obligations.BrTestsTheMask : Prop :=
  (∀ w : Word, w.extractLsb' 12 4 = 0#4 → decode w = .br (w.extractLsb' 9 3) (w.extractLsb' 0 9)) ∧
  ∀ (mask : BitVec 3) (off9 : BitVec 9) (s : State),
    ((mask.getLsbD 2 = true ∧ s.cond = .n) ∨ (mask.getLsbD 1 = true ∧ s.cond = .z) ∨
        (mask.getLsbD 0 = true ∧ s.cond = .p) →
      exec (.br mask off9) s = .next { s with pc := s.pc + off9.signExtend 16 }) ∧
    (¬ ((mask.getLsbD 2 = true ∧ s.cond = .n) ∨ (mask.getLsbD 1 = true ∧ s.cond = .z) ∨
        (mask.getLsbD 0 = true ∧ s.cond = .p)) →
      exec (.br mask off9) s = .next s)

/-- R140. The decode clause rests on the field positions (log 1). -/
def Obligations.JsrLinksAndJumps : Prop :=
  (∀ w : Word, w.extractLsb' 12 4 = 4#4 → w.getLsbD 11 = true → decode w = .jsr (w.extractLsb' 0 11)) ∧
  ∀ (off11 : BitVec 11) (s : State), ∃ t, exec (.jsr off11) s = .next t ∧
    t.reg 7 = s.pc ∧ t.pc = s.pc + off11.signExtend 16 ∧
    RegsBut [7] s t ∧ t.cond = s.cond ∧ CellsBut [] s t ∧ ChannelsKept s t ∧ ControlKept s t

/-- R141: R7 is written before the base register is read, so JSRR R7 continues at the next instruction. The decode clause
rests on the field positions (log 1). -/
def Obligations.JsrrLinksThenReadsItsBase : Prop :=
  (∀ w : Word, w.extractLsb' 12 4 = 4#4 → w.getLsbD 11 = false → decode w = .jsrr (w.extractLsb' 6 3).toFin) ∧
  ∀ (base : Reg) (s : State), ∃ t, exec (.jsrr base) s = .next t ∧
    t.reg 7 = s.pc ∧ t.pc = (if base = 7 then s.pc else s.reg base) ∧
    RegsBut [7] s t ∧ t.cond = s.cond ∧ CellsBut [] s t ∧ ChannelsKept s t ∧ ControlKept s t

/-- R142. The decode clause rests on the field positions (log 1). -/
def Obligations.JmpGoesToItsBase : Prop :=
  (∀ w : Word, w.extractLsb' 12 4 = 12#4 → decode w = .jmp (w.extractLsb' 6 3).toFin) ∧
  ∀ (base : Reg) (s : State), ∃ t, exec (.jmp base) s = .next t ∧
    t.pc = s.reg base ∧
    RegsBut [] s t ∧ t.cond = s.cond ∧ CellsBut [] s t ∧ ChannelsKept s t ∧ ControlKept s t

/-! ### TRAP and the undefined opcodes (45_trap.md, 46_undefined.md) -/

/-- R150, R151, R158: what the TRAP step does for each of the six vectors, and that every other vector does nothing. The
field positions are D1's (log 1), the byte OUT emits is D7's (log 8), the phases are D11's (log 10). -/
def Obligations.TrapDispatchesByVector : Prop :=
  (∀ w : Word, w.extractLsb' 12 4 = 15#4 → decode w = .trap (w.extractLsb' 0 8)) ∧
  ∀ s : State,
    exec (.trap 0x20#8) s = .next { s with phase := .waitInput .getc } ∧
    exec (.trap 0x21#8) s = .next { s with outq := s.outq ++ [(s.reg 0).setWidth 8] } ∧
    exec (.trap 0x22#8) s = .next { s with phase := .stringOut (s.reg 0) false } ∧
    exec (.trap 0x23#8) s = .next { s with outq := s.outq ++ s.params.inPrompt, phase := .waitInput .inEcho } ∧
    exec (.trap 0x24#8) s = .next { s with phase := .stringOut (s.reg 0) true } ∧
    exec (.trap 0x25#8) s = .next { s with outq := s.outq ++ s.params.haltNotice, phase := .halted } ∧
    ∀ v : Byte, v.toNat < 0x20 ∨ 0x25 < v.toNat → exec (.trap v) s = .next s

/-- R150: TRAP saves nothing: whatever the vector, it completes and registers (R7 among them), pc, cond, memory and
pending input are as before. -/
def Obligations.TrapSavesNothing : Prop :=
  ∀ (v : Byte) (s : State), ∃ t, exec (.trap v) s = .next t ∧
    RegsBut [] s t ∧ t.pc = s.pc ∧ t.cond = s.cond ∧ CellsBut [] s t ∧ t.inq = s.inq ∧ t.params = s.params

/-- R158: a TRAP with an unmapped vector, fetched elsewhere than at KBSR, changes nothing but the pc increment. -/
def Obligations.UnmappedVectorsDoNothing : Prop :=
  ∀ (s : State) (v : Byte), s.phase = .running → s.pc ≠ s.params.kbsrAddr → decode (s.mem.read s.pc) = .trap v →
    v.toNat < 0x20 ∨ 0x25 < v.toNat → step s = .next { s with pc := s.pc + 1#16 }

/-- R170, R171, R182: the undefined opcodes set the phase to FAULTED with opcode, word and the address fetched from,
and change nothing else. The record is D14's (log 13). -/
def Obligations.UndefinedOpcodesTakeTheirFault : Prop :=
  (∀ w : Word, w.extractLsb' 12 4 = 8#4 → decode w = .rti w) ∧
  (∀ w : Word, w.extractLsb' 12 4 = 13#4 → decode w = .res w) ∧
  ∀ (w : Word) (s : State),
    exec (.rti w) s = .next { s with phase := .faulted 8#4 w (s.pc - 1#16) } ∧
    exec (.res w) s = .next { s with phase := .faulted 13#4 w (s.pc - 1#16) }

/-! ### The primitives and the condition code -/

/-- R24: SetCC writes the sign class of the value and nothing else, and each flag-affecting instruction sets the flags from
its destination register's new value, also where the destination is a source. -/
def Obligations.SetCcClassifiesTheValue : Prop :=
  (∀ (s : State) (v : Word), SignClass v (s.setCC v).cond ∧ s.setCC v = { s with cond := (s.setCC v).cond }) ∧
  ∀ (i : Instr) (dr : Reg) (s : State), flagDest i = some dr →
    ∃ t, exec i s = .next t ∧ SignClass (t.reg dr) t.cond

/-- R42, R45: MemRead at KBSR_ADDR polls without blocking, everywhere else it is a plain read; registers, pc, cond,
phase and output are as before. The zero extension of a polled character is D7's (log 8). -/
def Obligations.StatusReadPolls : Prop :=
  ∀ (s : State) (a : Word), ReadOutcome s a (s.memRead a).1 (s.memRead a).2 ∧
    RegsBut [] s (s.memRead a).2 ∧ (s.memRead a).2.pc = s.pc ∧ (s.memRead a).2.cond = s.cond ∧
    (s.memRead a).2.outq = s.outq ∧ ControlKept s (s.memRead a).2

/-- R43: MemWrite stores at any address, the device cells included, changes no other cell and has no side effect. -/
def Obligations.MemWriteIsAPlainStore : Prop :=
  ∀ (s : State) (a v : Word), (s.memWrite a v).mem.read a = v ∧ CellsBut [a] s (s.memWrite a v) ∧
    s.memWrite a v = { s with mem := (s.memWrite a v).mem }

/-- R44 and the source's property S5: with no input pending, two status reads yield 0 both times; with exactly one character
pending, the first yields bit 15 with the data cell equal to its code (log 8), and the second yields 0. -/
def Obligations.SecondStatusReadYieldsZero : Prop :=
  ∀ s : State, s.params.distinct →
    let k := s.params.kbsrAddr
    (s.inq = [] → (s.memRead k).1 = 0#16 ∧ ((s.memRead k).2.memRead k).1 = 0#16) ∧
    (∀ c, s.inq = [c] → (s.memRead k).1 = 0x8000#16 ∧
      ((s.memRead k).2.memRead s.params.kbdrAddr).1 = c.zeroExtend 16 ∧
      ((s.memRead k).2.memRead k).1 = 0#16)

/-! ### The later steps of the service routines -/

/-- R160: with a character pending, the WAIT_INPUT step takes it into R0 zero-extended, echoes it for IN only, and goes
back to RUNNING; with none pending there is no step. The zero extension is D7's (log 8), the phase D11's (log 10), and
the stop step answers while it waits is the model's choice (log 16). -/
def Obligations.WaitInputTakesTheOldestCharacter : Prop :=
  ∀ (s : State) (k : InputKind), s.phase = .waitInput k →
    (s.inq = [] → step s = .fault (.waitingForInput k)) ∧
    (∀ c rest, s.inq = c :: rest → ∃ t, step s = .next t ∧
      t.reg 0 = c.zeroExtend 16 ∧ t.inq = rest ∧ t.phase = .running ∧
      t.outq = (if k = .inEcho then s.outq ++ [c] else s.outq) ∧
      RegsBut [0] s t ∧ t.pc = s.pc ∧ t.cond = s.cond ∧ CellsBut [] s t ∧ t.params = s.params)

/-- R159: the STRING_OUT step reads one cell through MemRead; a zero cell ends the routine and emits nothing; any other
emits its low byte, and for PUTSP its high byte if not zero, and goes on at the next address modulo 2^16 (D7, D9 and D11:
log 8, 9 and 10). -/
def Obligations.StringOutEmitsOneCell : Prop :=
  ∀ (s : State) (a : Word) (packed : Bool), s.phase = .stringOut a packed →
    ∃ t, step s = .next t ∧ ReadOutcome s a (s.memRead a).1 t ∧
      ((s.memRead a).1 = 0#16 → t.phase = .running ∧ t.outq = s.outq) ∧
      ((s.memRead a).1 ≠ 0#16 → t.phase = .stringOut (a + 1#16) packed ∧
        t.outq = s.outq ++ [(s.memRead a).1.extractLsb' 0 8] ++
          (if packed = true ∧ (s.memRead a).1.extractLsb' 8 8 ≠ 0#8 then [(s.memRead a).1.extractLsb' 8 8] else [])) ∧
      RegsBut [] s t ∧ t.pc = s.pc ∧ t.cond = s.cond ∧ t.params = s.params

/-- R152: a GETC fetched from a cell other than KBSR takes two steps when a character is pending: R0 holds its code,
nothing is emitted, cond is kept; when none is pending, the second step waits (D1, D7 and D11: log 1, 8 and 10), and
the stop step answers for the wait is the model's choice (log 16). -/
def Obligations.GetcReadsOneCharacter : Prop :=
  ∀ s : State, s.phase = .running → s.pc ≠ s.params.kbsrAddr → decode (s.mem.read s.pc) = .trap 0x20#8 →
    (s.inq = [] → runFor 2 s = .fault (.waitingForInput .getc)) ∧
    (∀ c rest, s.inq = c :: rest → ∃ t, runFor 2 s = .next t ∧
      t.reg 0 = c.zeroExtend 16 ∧ t.inq = rest ∧ t.outq = s.outq ∧ t.pc = s.pc + 1#16 ∧
      RegsBut [0] s t ∧ t.cond = s.cond ∧ CellsBut [] s t ∧ ControlKept s t)

/-- R155: IN emits the prompt, then behaves as GETC, and echoes the character (D1, D7 and D11: log 1, 8 and 10). The stop
step answers while it waits is the model's choice (log 16). -/
def Obligations.InPromptsReadsAndEchoes : Prop :=
  ∀ s : State, s.phase = .running → s.pc ≠ s.params.kbsrAddr → decode (s.mem.read s.pc) = .trap 0x23#8 →
    (s.inq = [] → step s = .next { s with
        pc := s.pc + 1#16, outq := s.outq ++ s.params.inPrompt, phase := .waitInput .inEcho } ∧
      runFor 2 s = .fault (.waitingForInput .inEcho)) ∧
    (∀ c rest, s.inq = c :: rest → ∃ t, runFor 2 s = .next t ∧
      t.reg 0 = c.zeroExtend 16 ∧ t.inq = rest ∧ t.outq = s.outq ++ s.params.inPrompt ++ [c] ∧ t.pc = s.pc + 1#16 ∧
      RegsBut [0] s t ∧ t.cond = s.cond ∧ CellsBut [] s t ∧ ControlKept s t)

/-- R154: a PUTS whose string does not reach KBSR emits exactly the low bytes of the cells from R0 up to the first zero
cell, in order, and continues at the next word with every register unchanged (D1, D7, D9 and D11: log 1, 8, 9 and 10). -/
def Obligations.PutsEmitsUpToTheZeroCell : Prop :=
  ∀ (n : Nat) (s : State), s.phase = .running → s.pc ≠ s.params.kbsrAddr → decode (s.mem.read s.pc) = .trap 0x22#8 →
    (∀ k, k ≤ n → s.reg 0 + BitVec.ofNat 16 k ≠ s.params.kbsrAddr) →
    (∀ k, k < n → s.mem.read (s.reg 0 + BitVec.ofNat 16 k) ≠ 0#16) →
    s.mem.read (s.reg 0 + BitVec.ofNat 16 n) = 0#16 →
    runFor (n + 2) s = .next { s with
      pc := s.pc + 1#16
      outq := s.outq ++ (List.range n).map fun k => (s.mem.read (s.reg 0 + BitVec.ofNat 16 k)).extractLsb' 0 8 }

/-- R156: the same for PUTSP: each non-zero cell emits its low byte, even when 0, then its high byte if not zero (D1, D9 and
D11: log 1, 9 and 10). -/
def Obligations.PutspEmitsPackedCells : Prop :=
  ∀ (n : Nat) (s : State), s.phase = .running → s.pc ≠ s.params.kbsrAddr → decode (s.mem.read s.pc) = .trap 0x24#8 →
    (∀ k, k ≤ n → s.reg 0 + BitVec.ofNat 16 k ≠ s.params.kbsrAddr) →
    (∀ k, k < n → s.mem.read (s.reg 0 + BitVec.ofNat 16 k) ≠ 0#16) →
    s.mem.read (s.reg 0 + BitVec.ofNat 16 n) = 0#16 →
    runFor (n + 2) s = .next { s with
      pc := s.pc + 1#16
      outq := s.outq ++ (List.range n).flatMap fun k =>
        let v := s.mem.read (s.reg 0 + BitVec.ofNat 16 k)
        if v.extractLsb' 8 8 = 0#8 then [v.extractLsb' 0 8] else [v.extractLsb' 0 8, v.extractLsb' 8 8] }

/-- The model's inference of log 22 (DEDUCED) from R42, R45 and R159 with D9 and D11 (log 9 and 10), beside R159's scan that
never ends, which needs input to keep arriving: a string scan wraps and so comes to KBSR, which reads 0 once no character is pending; without further input it ends within 65536 steps for each pending
character and 65536 more. -/
def Obligations.StringScanEndsWithoutFurtherInput : Prop :=
  ∀ (s : State) (a : Word) (packed : Bool), s.phase = .stringOut a packed →
    ∃ (n : Nat) (t : State), n ≤ 65536 * (s.inq.length + 1) ∧ runFor n s = .next t ∧ t.phase = .running

/-! ### The cycle -/

/-- R90: in phase RUNNING the word at pc is read through MemRead and pc is incremented modulo 2^16, whatever the word, before
the handler runs. -/
def Obligations.FetchReadsThenIncrements : Prop :=
  ∀ s : State, s.phase = .running →
    s.fetch.1 = (s.memRead s.pc).1 ∧ s.fetch.2.pc.toNat = (s.pc.toNat + 1) % 65536 ∧
    s.fetch.2 = { (s.memRead s.pc).2 with pc := s.fetch.2.pc } ∧
    step s = exec (decode s.fetch.1) s.fetch.2

/-- R90 to R94: in phase RUNNING the fetched word decodes to a well-formed instruction and the step is exec of it in the
state the fetch leaves. Away from KBSR that is the cell at pc and the state with pc incremented; at KBSR it is the poll's
result, RTI or a no-op (R90's inference). -/
def Obligations.StepRunsTheDecodedInstruction : Prop :=
  ∀ s : State, s.phase = .running →
    (decode s.fetch.1).wellFormed = true ∧ step s = exec (decode s.fetch.1) s.fetch.2 ∧
    (s.pc ≠ s.params.kbsrAddr → step s = exec (decode (s.mem.read s.pc)) { s with pc := s.pc + 1#16 }) ∧
    (s.pc = s.params.kbsrAddr → s.inq = [] → decode s.fetch.1 = .nop) ∧
    (s.pc = s.params.kbsrAddr → s.inq ≠ [] → decode s.fetch.1 = .rti 0x8000#16)

/-- R96: the only phase in which the engine waits is WAIT_INPUT, when INQ is empty, and the host's appending a character
lifts the wait; in every other phase that is not terminal the engine has a step. In a terminal phase it has none (R94). -/
def Obligations.StepExistsUnlessTerminalOrWaiting : Prop :=
  ∀ s : State, ((∃ t, step s = .next t) ↔ s.phase.terminal = false ∧ ¬ s.stuck) ∧
    (s.stuck → ∀ c : Byte, ∃ u, s.inputArrival c = some u ∧ ∃ t, step u = .next t)

/-- R41, R183: no instruction fails: exec answers a next state for every instruction and state, and a step in phase RUNNING
always has one, fetch included; no instruction but RTI and RES raises an exception. -/
def Obligations.EveryInstructionCompletes : Prop :=
  (∀ (i : Instr) (s : State), ∃ t, exec i s = .next t ∧
    ((∀ w, i ≠ .rti w ∧ i ≠ .res w) → t.endedByFault → s.endedByFault)) ∧
  ∀ s : State, s.phase = .running → ∃ t, step s = .next t

/-! ### Whole-machine rules -/

/-- R25: the seven flag-affecting instructions leave cond at the sign class of their destination register; every other
instruction, and every step of a waiting or string phase, leaves it unchanged; only BR reads it: any other instruction does
the same whatever cond held. -/
def Obligations.OnlySevenInstructionsWriteCond : Prop :=
  (∀ (i : Instr) (s : State), ∃ t, exec i s = .next t ∧
    (∀ dr, flagDest i = some dr → SignClass (t.reg dr) t.cond) ∧ (flagDest i = none → t.cond = s.cond)) ∧
  (∀ s t : State, s.phase ≠ .running → step s = .next t → t.cond = s.cond) ∧
  (∀ (i : Instr) (s t : State) (c : Cond), (∀ m o, i ≠ .br m o) → exec i s = .next t →
    ∃ u, exec i { s with cond := c } = .next u ∧ { u with cond := t.cond } = t)

/-- R23: once set, cond is never unset. Its four values are named, so no bit assignment (log 2) is involved. -/
def Obligations.CondStaysSet : Prop :=
  ∀ s t : State, s.cond ≠ .none → step s = .next t → t.cond ≠ .none

/-- R21: an instruction writes no register but its destination, and R7 for JSR and JSRR; of the later steps only
WAIT_INPUT writes a register, R0. -/
def Obligations.OnlyTheNamedRegistersAreWritten : Prop :=
  (∀ (i : Instr) (s : State), ∃ t, exec i s = .next t ∧ RegsBut (destRegs i) s t) ∧
  (∀ (s t : State) (k : InputKind), s.phase = .waitInput k → step s = .next t → RegsBut [0] s t) ∧
  (∀ (s t : State) (a : Word) (pk : Bool), s.phase = .stringOut a pk → step s = .next t → RegsBut [] s t)

/-- R22: the fetch sets pc to the fetched word's address plus 1 before the handler runs; of the instructions only BR (when
taken), JSR, JSRR and JMP write pc, and no step of a service routine does. -/
def Obligations.OnlyControlTransfersWritePc : Prop :=
  (∀ s : State, s.phase = .running → step s = exec (decode s.fetch.1) s.fetch.2 ∧ s.fetch.2.pc = s.pc + 1#16) ∧
  (∀ (i : Instr) (s : State), writesPc i = false → ∃ t, exec i s = .next t ∧ t.pc = s.pc) ∧
  (∀ (mask : BitVec 3) (off9 : BitVec 9) (s : State), s.branchTaken mask = false → exec (.br mask off9) s = .next s) ∧
  (∀ s t : State, s.phase ≠ .running → step s = .next t → t.pc = s.pc)

/-- R40, R42, R43: memory changes only at the address an instruction stores to and, if it reads KBSR, at the two device
cells. -/
def Obligations.MemoryChangesOnlyWhereStoredOrPolled : Prop :=
  ∀ (i : Instr) (s : State), ∃ t, exec i s = .next t ∧
    ∀ a : Word, storeAddr i s ≠ some a →
      (s.params.kbsrAddr ∉ readAddrs i s ∨ (a ≠ s.params.kbsrAddr ∧ a ≠ s.params.kbdrAddr)) →
      t.mem.read a = s.mem.read a

/-- R30: a step reaches HALTED only by TRAP x25 (log 1), and by it always. -/
def Obligations.HaltedOnlyByTrapHalt : Prop :=
  ∀ s t : State, step s = .next t →
    (t.phase = .halted ↔ s.phase = .running ∧ decode s.fetch.1 = .trap 0x25#8)

/-- R184: a step reaches FAULTED only from RUNNING by fetching a word of opcode 8 or 13, and it changes nothing but what the
fetch did: pc, and the keyboard poll where the word was fetched from KBSR. -/
def Obligations.FaultsArePrecise : Prop :=
  ∀ s t : State, step s = .next t → t.endedByFault →
    s.phase = .running ∧ (s.fetch.1.extractLsb' 12 4 = 8#4 ∨ s.fetch.1.extractLsb' 12 4 = 13#4) ∧
    t = { s.fetch.2 with phase := t.phase } ∧ RegsBut [] s t ∧ t.pc = s.pc + 1#16 ∧ t.cond = s.cond ∧
    t.outq = s.outq ∧ (s.pc ≠ s.params.kbsrAddr → CellsBut [] s t ∧ t.inq = s.inq)

/-- R52, R31: a step takes characters from the front of INQ alone, in order, at most two (LDI reading KBSR twice). The queue
is D12's (log 12). -/
def Obligations.InputIsConsumedInOrder : Prop :=
  ∀ s t : State, step s = .next t → ∃ k, k ≤ 2 ∧ t.inq = s.inq.drop k

/-- R216, R31: a step only appends to OUTQ (D12, log 12). -/
def Obligations.OutputIsAppendOnly : Prop :=
  ∀ s t : State, step s = .next t → ∃ bs, t.outq = s.outq ++ bs

/-- R8: no step changes the open parameters, which the model holds in State (log 20). -/
def Obligations.ParametersNeverChange : Prop :=
  ∀ s t : State, step s = .next t → t.params = s.params

/-- R56, R214: a word stored at pc by MemWrite is the word the next fetch reads, except at KBSR. -/
def Obligations.FetchSeesTheStore : Prop :=
  ∀ (s : State) (w : Word), s.phase = .running → s.pc ≠ s.params.kbsrAddr →
    step (s.memWrite s.pc w) = exec (decode w) ((s.memWrite s.pc w).setPc (s.pc + 1#16))

/-- R143, the source's property S3: JSR followed by JMP R7 returns to the instruction immediately after the JSR (neither
fetched from KBSR). -/
def Obligations.CallReturnRoundTrip : Prop :=
  ∀ (s : State) (off11 : BitVec 11), s.phase = .running → s.pc ≠ s.params.kbsrAddr →
    s.pc + 1#16 + off11.signExtend 16 ≠ s.params.kbsrAddr →
    decode (s.mem.read s.pc) = .jsr off11 → decode (s.mem.read (s.pc + 1#16 + off11.signExtend 16)) = .jmp 7 →
    ∃ t, runFor 2 s = .next t ∧ t.pc = s.pc + 1#16 ∧ t.reg 7 = s.pc + 1#16 ∧ RegsBut [7] s t ∧
      t.cond = s.cond ∧ CellsBut [] s t ∧ ChannelsKept s t ∧ ControlKept s t

/-! ### Invariant, reset, host -/

/-- Every step keeps the canonical form of memory (log 15) and the distinctness of the device cells (R28). -/
def Obligations.StepKeepsTheInvariant : Prop :=
  ∀ s t : State, s.inv → step s = .next t → t.inv

/-- The invariant, whose canonical form of memory is the model's (log 15), holds at reset, for every draw whose device
addresses differ, and at State.reset, whose device addresses are the model's (log 3) as its other draws are (log 4, 5, 6
and 12). -/
def Obligations.ResetHasTheInvariant : Prop :=
  (∀ d : Draws, d.params.distinct → (State.resetWith d).inv) ∧ State.reset.inv

/-- R33, R199: under every draw, every image that fits (log 18) and every schedule of engine moves and of the host's moves
beside step (log 14, and log 12 for the queue), the invariant holds: the canonical form of memory is the model's (log 15),
the distinct device cells R28's. -/
def Obligations.ReachableStatesHaveTheInvariant : Prop :=
  ∀ t : State, Reachable t → t.inv

/-- R33, R211: after boot every element holds its reset value, for every draw and every image that fits. -/
def Obligations.BootLeavesTheResetState : Prop :=
  ∀ (d : Draws) (origin : Word) (image : List Word), origin.toNat + image.length ≤ 65536 →
    ∃ s, State.boot d origin image = some s ∧ (∀ r : Reg, s.reg r = d.regInit.get r) ∧ s.pc = 0x3000#16 ∧
      s.cond = d.condInit ∧ s.phase = .running ∧ s.runningFlag = true ∧ s.inq = d.inq ∧ s.outq = [] ∧
      s.params = d.params ∧
      (∀ (k : Nat) (h : k < image.length), s.mem.read (origin + BitVec.ofNat 16 k) = image[k]) ∧
      (∀ a : Word, a.toNat < origin.toNat ∨ origin.toNat + image.length ≤ a.toNat → s.mem.read a = 0#16)

/-- R192, R199: in a non-terminal phase the host may abort, which sets the phase alone, and may append a character, which
changes INQ alone; in a terminal phase it may do neither. The abort is D13's (log 14),
the queue D12's (log 12). -/
def Obligations.HostMovesActBetweenSteps : Prop :=
  ∀ (s : State) (c : Byte),
    (s.phase.terminal = false → s.abort = some { s with phase := .aborted } ∧
      s.inputArrival c = some { s with inq := s.inq ++ [c] }) ∧
    (s.phase.terminal = true → s.abort = none ∧ s.inputArrival c = none)

/-- An inference of the model's from R31, R42, R52 and D12 (log 12): behind two pending characters, an arriving one does not
disturb the step in progress: step then arrival gives what arrival then step gives. -/
def Obligations.ArrivalCommutesWithAStep : Prop :=
  ∀ (s t : State) (c : Byte), 2 ≤ s.inq.length → step s = .next t →
    step { s with inq := s.inq ++ [c] } = .next { t with inq := t.inq ++ [c] }

/-- R198 with R94 and R96: a hang, under any schedule of engine moves and of the host's moves beside step (log 14, and log 21
for the fairness a hang takes on), never reaches a terminal phase and is never stuck for good; and a run the engine alone
keeps going is a hang with no host move in it. -/
def Obligations.AHangNeverEnds : Prop :=
  (∀ (moves : Nat → Move) (ex : Nat → State), Hang moves ex →
    (∀ k, (ex k).phase.terminal = false) ∧ (∀ k, ∃ j, k ≤ j ∧ ¬ (ex j).stuck)) ∧
  (∀ s : State, s.hangs → ∃ ex : Nat → State, ex 0 = s ∧ Hang (fun _ => .engine) ex)
end

