-- ==== Sys2Proof/Laws/Decode.lean ====
section
/-! SUPPORT. The lemmas of the decoder's fields and of the encoder's places. -/

namespace Sys2Proof

/-- A placed field's bits (30_encoding.md R62, R78). -/
theorem getLsbD_place {n : Nat} (f : BitVec n) (lo k : Nat) :
    (place f lo).getLsbD k = (decide (k < 16) && decide (lo ≤ k) && f.getLsbD (k - lo)) := by
  by_cases h : k < lo
  · simp [place, h]
  · simp [place, h, show lo ≤ k by omega]
    by_cases hk : k < 16
    · simp [hk, show k - lo < 16 by omega]
    · simp [hk]

@[simp] theorem toFin_regBits (r : Reg) : (regBits r).toFin = r := rfl

theorem regField_of_bits {w : Word} {lo : Nat} {r : Reg} (h : w.extractLsb' lo 3 = regBits r) : regField w lo = r := by
  rw [regField, h, toFin_regBits]

theorem regBits_regField (w : Word) (lo : Nat) : regBits (regField w lo) = w.extractLsb' lo 3 := rfl

theorem fieldR_of_bits {w : Word} {r : Reg} (h : w.extractLsb' 9 3 = regBits r) : fieldR w = r := regField_of_bits h
theorem fieldB_of_bits {w : Word} {r : Reg} (h : w.extractLsb' 6 3 = regBits r) : fieldB w = r := regField_of_bits h
theorem fieldT_of_bits {w : Word} {r : Reg} (h : w.extractLsb' 0 3 = regBits r) : fieldT w = r := regField_of_bits h

/-! ### What a word decodes to, by its opcode (R61) -/

section
variable {w : Word}

theorem decode_op0 (h : opcodeOf w = 0#4) : decode w = .br (fieldMask w) (fieldOff9 w) := by simp [decode, h]
theorem decode_op1 (h : opcodeOf w = 1#4) : decode w = decodeAdd w := by simp [decode, h]
theorem decode_op2 (h : opcodeOf w = 2#4) : decode w = .ld (fieldR w) (fieldOff9 w) := by simp [decode, h]
theorem decode_op3 (h : opcodeOf w = 3#4) : decode w = .st (fieldR w) (fieldOff9 w) := by simp [decode, h]
theorem decode_op4 (h : opcodeOf w = 4#4) : decode w = decodeJsr w := by simp [decode, h]
theorem decode_op5 (h : opcodeOf w = 5#4) : decode w = decodeAnd w := by simp [decode, h]
theorem decode_op6 (h : opcodeOf w = 6#4) : decode w = .ldr (fieldR w) (fieldB w) (fieldOff6 w) := by simp [decode, h]
theorem decode_op7 (h : opcodeOf w = 7#4) : decode w = .str (fieldR w) (fieldB w) (fieldOff6 w) := by simp [decode, h]
theorem decode_op8 (h : opcodeOf w = 8#4) : decode w = .rti w := by simp [decode, h]
theorem decode_op9 (h : opcodeOf w = 9#4) : decode w = .not (fieldR w) (fieldB w) := by simp [decode, h]
theorem decode_op10 (h : opcodeOf w = 10#4) : decode w = .ldi (fieldR w) (fieldOff9 w) := by simp [decode, h]
theorem decode_op11 (h : opcodeOf w = 11#4) : decode w = .sti (fieldR w) (fieldOff9 w) := by simp [decode, h]
theorem decode_op12 (h : opcodeOf w = 12#4) : decode w = .jmp (fieldB w) := by simp [decode, h]
theorem decode_op13 (h : opcodeOf w = 13#4) : decode w = .res w := by simp [decode, h]
theorem decode_op14 (h : opcodeOf w = 14#4) : decode w = .lea (fieldR w) (fieldOff9 w) := by simp [decode, h]
theorem decode_op15 (h : opcodeOf w = 15#4) : decode w = .trap (fieldVect8 w) := by simp [decode, h]

/-- Every opcode is one of the sixteen (R61, R72). -/
theorem opcode_cases (w : Word) :
    opcodeOf w = 0#4 ∨ opcodeOf w = 1#4 ∨ opcodeOf w = 2#4 ∨ opcodeOf w = 3#4 ∨ opcodeOf w = 4#4 ∨ opcodeOf w = 5#4 ∨
    opcodeOf w = 6#4 ∨ opcodeOf w = 7#4 ∨ opcodeOf w = 8#4 ∨ opcodeOf w = 9#4 ∨ opcodeOf w = 10#4 ∨
    opcodeOf w = 11#4 ∨ opcodeOf w = 12#4 ∨ opcodeOf w = 13#4 ∨ opcodeOf w = 14#4 ∨ opcodeOf w = 15#4 := by
  generalize opcodeOf w = x
  revert x
  decide

end

end Sys2Proof
end

