-- ==== Sys2Proof/Laws/Memory.lean ====
section
/-! SUPPORT. The laws of the memory array: a read after a write, and the canonical form. -/

namespace Sys2Proof.Machine

/-! ### Reading after erasing and inserting -/

theorem Memory.lookup_erase_same (m : Memory) (k : Nat) : (m.erase k).lookup k = unlistedCell := by
  induction m with
  | nil => rfl
  | cons e m ih =>
    obtain ⟨a, v⟩ := e
    by_cases h : a = k <;> simp [Memory.erase, Memory.lookup, h, ih]

theorem Memory.lookup_erase_other (m : Memory) {k j : Nat} (hj : j ≠ k) : (m.erase k).lookup j = m.lookup j := by
  induction m with
  | nil => rfl
  | cons e m ih =>
    obtain ⟨a, v⟩ := e
    by_cases h : a = k
    · subst h
      simp [Memory.erase, Memory.lookup, hj.symm, ih]
    · simp [Memory.erase, Memory.lookup, if_neg h, ih]

theorem Memory.lookup_insert_erase_same (m : Memory) (k : Nat) (v : Word) : ((m.erase k).insert k v).lookup k = v := by
  induction m with
  | nil => simp [Memory.erase, Memory.insert, Memory.lookup]
  | cons e m ih =>
    obtain ⟨a, x⟩ := e
    by_cases h : a = k
    · simpa [Memory.erase, h] using ih
    · by_cases h2 : k < a <;> simp [Memory.erase, Memory.insert, Memory.lookup, h, h2, ih]

theorem Memory.lookup_insert_other (m : Memory) {k j : Nat} (v : Word) (hj : j ≠ k) :
    (m.insert k v).lookup j = m.lookup j := by
  induction m with
  | nil => simp [Memory.insert, Memory.lookup, hj.symm]
  | cons e m ih =>
    obtain ⟨a, x⟩ := e
    by_cases h : k < a
    · simp [Memory.insert, Memory.lookup, h, hj.symm]
    · simp [Memory.insert, Memory.lookup, if_neg h, ih]

/-- A read after a write: the value written at its address, the old cell at every other (20_memory.md R43, R53). -/
theorem Memory.read_write (m : Memory) (a b v : Word) :
    (m.write a v).read b = if b = a then v else m.read b := by
  simp only [Memory.write, Memory.read]
  by_cases hb : b = a
  · subst hb
    by_cases hv : v = unlistedCell
    · simp [hv, Memory.lookup_erase_same]
    · simp [hv, Memory.lookup_insert_erase_same]
  · have hn : b.toNat ≠ a.toNat := fun h => hb (BitVec.eq_of_toNat_eq h)
    by_cases hv : v = unlistedCell
    · simp [hb, hv, Memory.lookup_erase_other m hn]
    · simp [hb, hv, Memory.lookup_insert_other _ v hn, Memory.lookup_erase_other m hn]

@[simp] theorem Memory.read_write_same (m : Memory) (a v : Word) : (m.write a v).read a = v := by
  simp [Memory.read_write]

theorem Memory.read_write_other (m : Memory) {a b : Word} (h : b ≠ a) (v : Word) : (m.write a v).read b = m.read b := by
  simp [Memory.read_write, h]

@[simp] theorem Memory.read_nil (a : Word) : Memory.read [] a = 0#16 := rfl

/-! ### The canonical form -/

theorem Memory.wfFrom_cons (lo a : Nat) (v : Word) (m : Memory) :
    Memory.wfFrom lo ((a, v) :: m) = true ↔ lo ≤ a ∧ a < 65536 ∧ v ≠ unlistedCell ∧ Memory.wfFrom (a + 1) m = true := by
  simp [Memory.wfFrom, and_assoc]

theorem Memory.wfFrom_mono {lo lo' : Nat} {m : Memory} (h : Memory.wfFrom lo m = true) (hl : lo' ≤ lo) :
    Memory.wfFrom lo' m = true := by
  cases m with
  | nil => rfl
  | cons e m =>
    obtain ⟨a, v⟩ := e
    rw [Memory.wfFrom_cons] at h ⊢
    exact ⟨hl.trans h.1, h.2⟩

theorem Memory.erase_wfFrom {m : Memory} (k : Nat) {lo : Nat} (h : Memory.wfFrom lo m = true) :
    Memory.wfFrom lo (m.erase k) = true := by
  induction m generalizing lo with
  | nil => rfl
  | cons e m ih =>
    obtain ⟨a, v⟩ := e
    rw [Memory.wfFrom_cons] at h
    by_cases hk : a = k
    · simpa [Memory.erase, hk] using Memory.wfFrom_mono (ih h.2.2.2) (by omega)
    · simpa [Memory.erase, hk, Memory.wfFrom_cons] using ⟨h.1, h.2.1, h.2.2.1, ih h.2.2.2⟩

theorem Memory.insert_erase_wfFrom {m : Memory} {k : Nat} {v : Word} (hk : k < 65536) (hv : v ≠ unlistedCell) {lo : Nat}
    (hlo : lo ≤ k) (h : Memory.wfFrom lo m = true) : Memory.wfFrom lo ((m.erase k).insert k v) = true := by
  induction m generalizing lo with
  | nil => simpa [Memory.erase, Memory.insert, Memory.wfFrom] using ⟨⟨hlo, hk⟩, hv⟩
  | cons e m ih =>
    obtain ⟨a, x⟩ := e
    rw [Memory.wfFrom_cons] at h
    by_cases hak : a = k
    · simpa [Memory.erase, hak] using ih hlo (Memory.wfFrom_mono h.2.2.2 (by omega))
    · by_cases hlt : k < a
      · have := Memory.erase_wfFrom k h.2.2.2
        simpa [Memory.erase, hak, Memory.insert, hlt, Memory.wfFrom_cons] using
          ⟨hlo, hk, hv, h.2.1, h.2.2.1, this⟩
      · have := ih (lo := a + 1) (by omega) h.2.2.2
        simpa [Memory.erase, hak, Memory.insert, hlt, Memory.wfFrom_cons] using ⟨h.1, h.2.1, h.2.2.1, this⟩

/-- A write keeps the canonical form (log 15). -/
theorem Memory.write_wf {m : Memory} (h : m.wf = true) (a v : Word) : (m.write a v).wf = true := by
  unfold Memory.write Memory.wf
  split
  · exact Memory.erase_wfFrom _ h
  · exact Memory.insert_erase_wfFrom a.isLt ‹_› (Nat.zero_le _) h

/-- Reset memory has the canonical form. -/
theorem State.resetWith_mem_wf (d : Draws) : (State.resetWith d).mem.wf = true := rfl

/-- Below its lower bound a canonical list holds nothing. -/
theorem Memory.lookup_of_lt {m : Memory} {lo k : Nat} (h : Memory.wfFrom lo m = true) (hk : k < lo) :
    m.lookup k = unlistedCell := by
  induction m generalizing lo with
  | nil => rfl
  | cons e m ih =>
    obtain ⟨a, v⟩ := e
    rw [Memory.wfFrom_cons] at h
    have hne : a ≠ k := by omega
    simpa [Memory.lookup, hne] using ih h.2.2.2 (by omega)

/-- In canonical form, memories that read alike are the same list. -/
theorem Memory.eq_of_lookup {m m' : Memory} {lo : Nat} (h : Memory.wfFrom lo m = true) (h' : Memory.wfFrom lo m' = true)
    (hr : ∀ k < 65536, m.lookup k = m'.lookup k) : m = m' := by
  induction m generalizing lo m' with
  | nil =>
    cases m' with
    | nil => rfl
    | cons e' m' =>
      obtain ⟨a, v⟩ := e'
      rw [Memory.wfFrom_cons] at h'
      have := hr a h'.2.1
      simp [Memory.lookup] at this
      exact absurd this.symm h'.2.2.1
  | cons e m ih =>
    obtain ⟨a, v⟩ := e
    have hc := h
    rw [Memory.wfFrom_cons] at h
    cases m' with
    | nil =>
      have := hr a h.2.1
      simp [Memory.lookup] at this
      exact absurd this h.2.2.1
    | cons e' m' =>
      obtain ⟨b, w⟩ := e'
      have hc' := h'
      rw [Memory.wfFrom_cons] at h'
      rcases Nat.lt_trichotomy a b with hab | rfl | hab
      · have := hr a h.2.1
        have hz : Memory.lookup ((b, w) :: m') a = unlistedCell :=
          Memory.lookup_of_lt (lo := b) (by rw [Memory.wfFrom_cons]; exact ⟨le_refl _, h'.2⟩) hab
        rw [hz] at this
        simp [Memory.lookup] at this
        exact absurd this h.2.2.1
      · have hv : v = w := by simpa [Memory.lookup] using hr a h.2.1
        subst hv
        congr 1
        refine ih h.2.2.2 h'.2.2.2 fun k hk => ?_
        by_cases hka : a = k
        · subst hka
          rw [Memory.lookup_of_lt h.2.2.2 (Nat.lt_succ_self _), Memory.lookup_of_lt h'.2.2.2 (Nat.lt_succ_self _)]
        · simpa [Memory.lookup, hka] using hr k hk
      · have := hr b h'.2.1
        have hz : Memory.lookup ((a, v) :: m) b = unlistedCell :=
          Memory.lookup_of_lt (lo := a) (by rw [Memory.wfFrom_cons]; exact ⟨le_refl _, h.2⟩) hab
        rw [hz] at this
        simp [Memory.lookup] at this
        exact absurd this.symm h'.2.2.1

/-- Canonical memories that read alike at every address are equal data (log 15). -/
theorem Memory.eq_of_read {m m' : Memory} (h : m.wf = true) (h' : m'.wf = true) (hr : ∀ a, m.read a = m'.read a) :
    m = m' :=
  Memory.eq_of_lookup h h' fun k hk => by
    have := hr (BitVec.ofNat 16 k)
    simpa [Memory.read, Nat.mod_eq_of_lt hk] using this

end Sys2Proof.Machine
end

