-- ==== Sys2Proof/Laws/State.lean ====
section
/-! SUPPORT. One lemma per field per update of State, true by rfl, and the register read of each update. -/

namespace Sys2Proof.Machine

variable (s : State)

/-! ### State.setReg -/

@[simp] theorem State.setReg_regs (r : Reg) (v : Word) : (s.setReg r v).regs = s.regs.set r.val v r.isLt := rfl
@[simp] theorem State.setReg_pc (r : Reg) (v : Word) : (s.setReg r v).pc = s.pc := rfl
@[simp] theorem State.setReg_cond (r : Reg) (v : Word) : (s.setReg r v).cond = s.cond := rfl
@[simp] theorem State.setReg_mem (r : Reg) (v : Word) : (s.setReg r v).mem = s.mem := rfl
@[simp] theorem State.setReg_phase (r : Reg) (v : Word) : (s.setReg r v).phase = s.phase := rfl
@[simp] theorem State.setReg_inq (r : Reg) (v : Word) : (s.setReg r v).inq = s.inq := rfl
@[simp] theorem State.setReg_outq (r : Reg) (v : Word) : (s.setReg r v).outq = s.outq := rfl
@[simp] theorem State.setReg_params (r : Reg) (v : Word) : (s.setReg r v).params = s.params := rfl

/-! ### State.setPc -/

@[simp] theorem State.setPc_regs (v : Word) : (s.setPc v).regs = s.regs := rfl
@[simp] theorem State.setPc_pc (v : Word) : (s.setPc v).pc = v := rfl
@[simp] theorem State.setPc_cond (v : Word) : (s.setPc v).cond = s.cond := rfl
@[simp] theorem State.setPc_mem (v : Word) : (s.setPc v).mem = s.mem := rfl
@[simp] theorem State.setPc_phase (v : Word) : (s.setPc v).phase = s.phase := rfl
@[simp] theorem State.setPc_inq (v : Word) : (s.setPc v).inq = s.inq := rfl
@[simp] theorem State.setPc_outq (v : Word) : (s.setPc v).outq = s.outq := rfl
@[simp] theorem State.setPc_params (v : Word) : (s.setPc v).params = s.params := rfl
@[simp] theorem State.setPc_reg (v : Word) (q : Reg) : (s.setPc v).reg q = s.reg q := rfl

/-! ### State.setCC -/

@[simp] theorem State.setCC_regs (v : Word) : (s.setCC v).regs = s.regs := rfl
@[simp] theorem State.setCC_pc (v : Word) : (s.setCC v).pc = s.pc := rfl
@[simp] theorem State.setCC_cond (v : Word) : (s.setCC v).cond = condOf v := rfl
@[simp] theorem State.setCC_mem (v : Word) : (s.setCC v).mem = s.mem := rfl
@[simp] theorem State.setCC_phase (v : Word) : (s.setCC v).phase = s.phase := rfl
@[simp] theorem State.setCC_inq (v : Word) : (s.setCC v).inq = s.inq := rfl
@[simp] theorem State.setCC_outq (v : Word) : (s.setCC v).outq = s.outq := rfl
@[simp] theorem State.setCC_params (v : Word) : (s.setCC v).params = s.params := rfl
@[simp] theorem State.setCC_reg (v : Word) (q : Reg) : (s.setCC v).reg q = s.reg q := rfl

/-! ### State.memWrite -/

@[simp] theorem State.memWrite_regs (a v : Word) : (s.memWrite a v).regs = s.regs := rfl
@[simp] theorem State.memWrite_pc (a v : Word) : (s.memWrite a v).pc = s.pc := rfl
@[simp] theorem State.memWrite_cond (a v : Word) : (s.memWrite a v).cond = s.cond := rfl
@[simp] theorem State.memWrite_mem (a v : Word) : (s.memWrite a v).mem = s.mem.write a v := rfl
@[simp] theorem State.memWrite_phase (a v : Word) : (s.memWrite a v).phase = s.phase := rfl
@[simp] theorem State.memWrite_inq (a v : Word) : (s.memWrite a v).inq = s.inq := rfl
@[simp] theorem State.memWrite_outq (a v : Word) : (s.memWrite a v).outq = s.outq := rfl
@[simp] theorem State.memWrite_params (a v : Word) : (s.memWrite a v).params = s.params := rfl
@[simp] theorem State.memWrite_reg (a v : Word) (q : Reg) : (s.memWrite a v).reg q = s.reg q := rfl

/-! ### State.emitString -/

@[simp] theorem State.emitString_regs (bs : List Byte) : (s.emitString bs).regs = s.regs := rfl
@[simp] theorem State.emitString_pc (bs : List Byte) : (s.emitString bs).pc = s.pc := rfl
@[simp] theorem State.emitString_cond (bs : List Byte) : (s.emitString bs).cond = s.cond := rfl
@[simp] theorem State.emitString_mem (bs : List Byte) : (s.emitString bs).mem = s.mem := rfl
@[simp] theorem State.emitString_phase (bs : List Byte) : (s.emitString bs).phase = s.phase := rfl
@[simp] theorem State.emitString_inq (bs : List Byte) : (s.emitString bs).inq = s.inq := rfl
@[simp] theorem State.emitString_outq (bs : List Byte) : (s.emitString bs).outq = s.outq ++ bs := rfl
@[simp] theorem State.emitString_params (bs : List Byte) : (s.emitString bs).params = s.params := rfl
@[simp] theorem State.emitString_reg (bs : List Byte) (q : Reg) : (s.emitString bs).reg q = s.reg q := rfl

/-! ### State.enter -/

@[simp] theorem State.enter_regs (p : Phase) : (s.enter p).regs = s.regs := rfl
@[simp] theorem State.enter_pc (p : Phase) : (s.enter p).pc = s.pc := rfl
@[simp] theorem State.enter_cond (p : Phase) : (s.enter p).cond = s.cond := rfl
@[simp] theorem State.enter_mem (p : Phase) : (s.enter p).mem = s.mem := rfl
@[simp] theorem State.enter_phase (p : Phase) : (s.enter p).phase = p := rfl
@[simp] theorem State.enter_inq (p : Phase) : (s.enter p).inq = s.inq := rfl
@[simp] theorem State.enter_outq (p : Phase) : (s.enter p).outq = s.outq := rfl
@[simp] theorem State.enter_params (p : Phase) : (s.enter p).params = s.params := rfl
@[simp] theorem State.enter_reg (p : Phase) (q : Reg) : (s.enter p).reg q = s.reg q := rfl

/-! ### Register reads after a register write -/

/-- A register written reads as the value written, every other register as before. -/
theorem State.setReg_reg (r q : Reg) (v : Word) : (s.setReg r v).reg q = if q = r then v else s.reg q := by
  simp only [State.reg, State.setReg, Vector.get_eq_getElem, Vector.getElem_set, Fin.ext_iff, eq_comm]

@[simp] theorem State.setReg_reg_same (r : Reg) (v : Word) : (s.setReg r v).reg r = v := by
  simp [State.setReg_reg]

theorem State.setReg_reg_other {r q : Reg} (h : q ≠ r) (v : Word) : (s.setReg r v).reg q = s.reg q := by
  simp [State.setReg_reg, h]

/-- Writing a register and setting the flags from it sets them from the value written. -/
theorem State.setRegCC_eq (r : Reg) (v : Word) : s.setRegCC r v = (s.setReg r v).setCC v := by
  simp [State.setRegCC]

@[simp] theorem State.setRegCC_regs (r : Reg) (v : Word) : (s.setRegCC r v).regs = s.regs.set r.val v r.isLt := by
  simp [State.setRegCC_eq]
@[simp] theorem State.setRegCC_pc (r : Reg) (v : Word) : (s.setRegCC r v).pc = s.pc := by
  simp [State.setRegCC_eq]
@[simp] theorem State.setRegCC_cond (r : Reg) (v : Word) : (s.setRegCC r v).cond = condOf v := by
  simp [State.setRegCC_eq]
@[simp] theorem State.setRegCC_mem (r : Reg) (v : Word) : (s.setRegCC r v).mem = s.mem := by
  simp [State.setRegCC_eq]
@[simp] theorem State.setRegCC_phase (r : Reg) (v : Word) : (s.setRegCC r v).phase = s.phase := by
  simp [State.setRegCC_eq]
@[simp] theorem State.setRegCC_inq (r : Reg) (v : Word) : (s.setRegCC r v).inq = s.inq := by
  simp [State.setRegCC_eq]
@[simp] theorem State.setRegCC_outq (r : Reg) (v : Word) : (s.setRegCC r v).outq = s.outq := by
  simp [State.setRegCC_eq]
@[simp] theorem State.setRegCC_params (r : Reg) (v : Word) : (s.setRegCC r v).params = s.params := by
  simp [State.setRegCC_eq]

theorem State.setRegCC_reg (r q : Reg) (v : Word) : (s.setRegCC r v).reg q = if q = r then v else s.reg q := by
  simp [State.setRegCC_eq, State.setReg_reg]

@[simp] theorem State.setRegCC_reg_same (r : Reg) (v : Word) : (s.setRegCC r v).reg r = v := by
  simp [State.setRegCC_reg]

end Sys2Proof.Machine
end

