-- ==== Sys2Proof/Laws/Ops.lean ====
section
/-! SUPPORT. What each shared operation can do, once: the poll, a read, a load, the link, the service routines and
the steps of the waiting and string phases. -/

namespace Sys2Proof.Machine

variable (s : State)

/-! ### The poll (20_memory.md R42, R45) -/

theorem State.poll_nil {s : State} (h : s.inq = []) :
    s.poll = { s with mem := s.mem.write s.params.kbsrAddr 0x0000#16 } := by
  simp [State.poll, h]

theorem State.poll_cons {s : State} {c : Byte} {rest : List Byte} (h : s.inq = c :: rest) :
    s.poll = { s with
      inq := rest
      mem := (s.mem.write s.params.kbdrAddr (charWord c)).write s.params.kbsrAddr kbsrReady } := by
  simp [State.poll, h]

@[simp] theorem State.poll_regs : s.poll.regs = s.regs := by unfold State.poll; split <;> rfl
@[simp] theorem State.poll_pc : s.poll.pc = s.pc := by unfold State.poll; split <;> rfl
@[simp] theorem State.poll_cond : s.poll.cond = s.cond := by unfold State.poll; split <;> rfl
@[simp] theorem State.poll_phase : s.poll.phase = s.phase := by unfold State.poll; split <;> rfl
@[simp] theorem State.poll_outq : s.poll.outq = s.outq := by unfold State.poll; split <;> rfl
@[simp] theorem State.poll_params : s.poll.params = s.params := by unfold State.poll; split <;> rfl

/-- A poll takes at most the oldest character. -/
@[simp] theorem State.poll_inq : s.poll.inq = s.inq.tail := by unfold State.poll; split <;> simp_all

theorem State.poll_mem_wf {s : State} (h : s.mem.wf = true) : s.poll.mem.wf = true := by
  cases hq : s.inq with
  | nil => rw [State.poll_nil hq]; exact Memory.write_wf h s.params.kbsrAddr 0x0000#16
  | cons c rest =>
    rw [State.poll_cons hq]
    exact Memory.write_wf (Memory.write_wf h s.params.kbdrAddr (charWord c)) s.params.kbsrAddr kbsrReady

/-- A poll writes no cell but the two device cells. -/
theorem State.poll_read_other {s : State} {a : Word} (hs : a ≠ s.params.kbsrAddr) (hd : a ≠ s.params.kbdrAddr) :
    s.poll.mem.read a = s.mem.read a := by
  unfold State.poll
  split <;> simp [Memory.read_write, hs, hd]

/-! ### What a read leaves (R42, R44) -/

theorem State.touch_of_ne {s : State} {a : Word} (h : a ≠ s.params.kbsrAddr) : s.touch a = s := by
  simp [State.touch, h]

theorem State.touch_kbsr : s.touch s.params.kbsrAddr = s.poll := by simp [State.touch]

/-- Either the address is not KBSR's and nothing changes, or it is and the keyboard is polled. -/
theorem State.touch_cases (a : Word) :
    (a ≠ s.params.kbsrAddr ∧ s.touch a = s) ∨ (a = s.params.kbsrAddr ∧ s.touch a = s.poll) := by
  unfold State.touch
  split <;> simp_all

@[simp] theorem State.touch_regs (a : Word) : (s.touch a).regs = s.regs := by
  rcases s.touch_cases a with ⟨-, h⟩ | ⟨-, h⟩ <;> simp [h]
@[simp] theorem State.touch_reg (a : Word) (r : Reg) : (s.touch a).reg r = s.reg r := by simp [State.reg]
@[simp] theorem State.touch_pc (a : Word) : (s.touch a).pc = s.pc := by
  rcases s.touch_cases a with ⟨-, h⟩ | ⟨-, h⟩ <;> simp [h]
@[simp] theorem State.touch_cond (a : Word) : (s.touch a).cond = s.cond := by
  rcases s.touch_cases a with ⟨-, h⟩ | ⟨-, h⟩ <;> simp [h]
@[simp] theorem State.touch_phase (a : Word) : (s.touch a).phase = s.phase := by
  rcases s.touch_cases a with ⟨-, h⟩ | ⟨-, h⟩ <;> simp [h]
@[simp] theorem State.touch_outq (a : Word) : (s.touch a).outq = s.outq := by
  rcases s.touch_cases a with ⟨-, h⟩ | ⟨-, h⟩ <;> simp [h]
@[simp] theorem State.touch_params (a : Word) : (s.touch a).params = s.params := by
  rcases s.touch_cases a with ⟨-, h⟩ | ⟨-, h⟩ <;> simp [h]

theorem State.touch_mem_wf {s : State} (h : s.mem.wf = true) (a : Word) : (s.touch a).mem.wf = true := by
  rcases s.touch_cases a with ⟨-, e⟩ | ⟨-, e⟩ <;> rw [e]
  exacts [h, State.poll_mem_wf h]

theorem State.touch_read_other {s : State} {b : Word} (a : Word) (hs : b ≠ s.params.kbsrAddr)
    (hd : b ≠ s.params.kbdrAddr) : (s.touch a).mem.read b = s.mem.read b := by
  rcases s.touch_cases a with ⟨-, e⟩ | ⟨-, e⟩ <;> rw [e]
  exact State.poll_read_other hs hd

/-- A read takes no character, or the oldest one. -/
theorem State.touch_inq (a : Word) : (s.touch a).inq = s.inq ∨ (s.touch a).inq = s.inq.tail := by
  rcases s.touch_cases a with ⟨-, h⟩ | ⟨-, h⟩ <;> simp [h]

theorem State.memRead_fst (a : Word) : (s.memRead a).1 = (s.touch a).mem.read a := rfl

@[simp] theorem State.memRead_snd (a : Word) : (s.memRead a).2 = s.touch a := rfl

theorem State.memRead_of_ne {s : State} {a : Word} (h : a ≠ s.params.kbsrAddr) : s.memRead a = (s.mem.read a, s) := by
  simp [State.memRead, State.touch_of_ne h]

/-! ### Fetch (40_cycle.md R90) -/

theorem State.fetch_snd : s.fetch.2 = (s.touch s.pc).setPc (s.pc + 1#16) := rfl

theorem State.fetch_of_ne {s : State} (h : s.pc ≠ s.params.kbsrAddr) :
    s.fetch = (s.mem.read s.pc, s.setPc (s.pc + 1#16)) := by
  simp [State.fetch, State.memRead_of_ne h]

/-! ### Load, link -/

theorem State.loadFrom_eq (dr : Reg) (a : Word) :
    s.loadFrom dr a = (s.touch a).setRegCC dr ((s.touch a).mem.read a) := rfl

theorem State.link_eq : s.link = s.setReg 7 s.pc := rfl

/-! ### The service routines (45_trap.md R151, R161) -/

/-- Everything a service routine can do: a phase, some output, nothing else. -/
theorem State.serviceRoutine_cases (v : Byte) :
    ∃ p bs, s.serviceRoutine v = { s with phase := p, outq := s.outq ++ bs } := by
  unfold State.serviceRoutine
  split_ifs
  exacts [⟨_, [], by simp [State.trapGetc, State.enter]; rfl⟩, ⟨s.phase, _, rfl⟩,
    ⟨_, [], by simp [State.trapPuts, State.enter]; rfl⟩, ⟨_, _, rfl⟩, ⟨_, [], by simp [State.trapPutsp, State.enter]; rfl⟩,
    ⟨_, _, rfl⟩, ⟨s.phase, [], by simp⟩]

/-! ### The later steps of the routines (R159, R160) -/

theorem State.waitInputStep_nil {s : State} (k : InputKind) (h : s.inq = []) :
    s.waitInputStep k = .fault (.waitingForInput k) := by
  unfold State.waitInputStep
  rw [h]

theorem State.waitInputStep_cons {s : State} (k : InputKind) {c : Byte} {rest : List Byte} (h : s.inq = c :: rest) :
    s.waitInputStep k =
      .next (((({ s with inq := rest } : State).setReg ioReg (charWord c)).emitString (echoBytes k c)).enter .running) := by
  unfold State.waitInputStep
  rw [h]

theorem State.stringOutStep_zero {s : State} {a : Word} (pk : Bool) (h : (s.memRead a).1 = 0#16) :
    s.stringOutStep a pk = .next ((s.touch a).enter .running) := by
  simp [State.stringOutStep, h]

theorem State.stringOutStep_nonzero {s : State} {a : Word} (pk : Bool) (h : (s.memRead a).1 ≠ 0#16) :
    s.stringOutStep a pk =
      .next (((s.touch a).emitString (cellBytes pk (s.memRead a).1)).enter (.stringOut (a + 1#16) pk)) := by
  simp [State.stringOutStep, h]

/-- The STRING_OUT step reads one cell, and ends the routine or emits and advances. -/
theorem State.stringOutStep_cases {s t : State} {a : Word} {pk : Bool} (h : s.stringOutStep a pk = .next t) :
    ((s.memRead a).1 = 0#16 ∧ t = (s.touch a).enter .running) ∨
    ((s.memRead a).1 ≠ 0#16 ∧
      t = ((s.touch a).emitString (cellBytes pk (s.memRead a).1)).enter (.stringOut (a + 1#16) pk)) := by
  simp only [State.stringOutStep, Host.Outcome.next.injEq] at h
  split at h <;> simp_all

/-- The WAIT_INPUT step takes the oldest character into R0 and runs on. -/
theorem State.waitInputStep_cases {s t : State} {k : InputKind} (h : s.waitInputStep k = .next t) :
    ∃ c rest, s.inq = c :: rest ∧
      t = { s with
        inq := rest
        regs := s.regs.set 0 (charWord c)
        outq := s.outq ++ echoBytes k c
        phase := .running } := by
  unfold State.waitInputStep at h
  split at h
  · cases h
  · rename_i c rest hq
    exact ⟨c, rest, hq, (Host.Outcome.next.inj h).symm⟩

end Sys2Proof.Machine
end

