-- ==== Sys2Proof/Laws/PerInstr.lean ====
section
/-! SUPPORT. The per-instruction family EncodedOpcode: the word of a well-formed instruction has that instruction's
opcode (30_encoding.md R61). -/

namespace Sys2Proof.Laws.EncodedOpcode

/-- The opcode of an instruction: the table of R61. -/
def opcode : Instr → BitVec 4
  | .br _ _ => 0#4
  | .addReg _ _ _ => 1#4
  | .addImm _ _ _ => 1#4
  | .ld _ _ => 2#4
  | .st _ _ => 3#4
  | .jsr _ => 4#4
  | .jsrr _ => 4#4
  | .andReg _ _ _ => 5#4
  | .andImm _ _ _ => 5#4
  | .ldr _ _ _ => 6#4
  | .str _ _ _ => 7#4
  | .rti _ => 8#4
  | .not _ _ => 9#4
  | .ldi _ _ => 10#4
  | .sti _ _ => 11#4
  | .jmp _ => 12#4
  | .res _ => 13#4
  | .lea _ _ => 14#4
  | .trap _ => 15#4

/-- The encoding of a well-formed instruction has its opcode in bits 15:12. -/
def Statement (i : Instr) : Prop := i.wellFormed = true → opcodeOf (encode i) = opcode i

theorem br (m : BitVec 3) (o : BitVec 9) : Statement (.br m o) := fun _ => by
  ext k hk; simp [opcodeOf, encode, opcode, place]; interval_cases k <;> simp

theorem addReg (dr sr1 sr2 : Reg) : Statement (.addReg dr sr1 sr2) := fun _ => by
  ext k hk; simp [opcodeOf, encode, opcode, place]; interval_cases k <;> simp

theorem addImm (dr sr1 : Reg) (i : BitVec 5) : Statement (.addImm dr sr1 i) := fun _ => by
  ext k hk; simp [opcodeOf, encode, opcode, place]; interval_cases k <;> simp

theorem ld (dr : Reg) (o : BitVec 9) : Statement (.ld dr o) := fun _ => by
  ext k hk; simp [opcodeOf, encode, opcode, place]; interval_cases k <;> simp

theorem st (sr : Reg) (o : BitVec 9) : Statement (.st sr o) := fun _ => by
  ext k hk; simp [opcodeOf, encode, opcode, place]; interval_cases k <;> simp

theorem jsr (o : BitVec 11) : Statement (.jsr o) := fun _ => by
  ext k hk; simp [opcodeOf, encode, opcode, place]; interval_cases k <;> simp

theorem jsrr (base : Reg) : Statement (.jsrr base) := fun _ => by
  ext k hk; simp [opcodeOf, encode, opcode, place]; interval_cases k <;> simp

theorem andReg (dr sr1 sr2 : Reg) : Statement (.andReg dr sr1 sr2) := fun _ => by
  ext k hk; simp [opcodeOf, encode, opcode, place]; interval_cases k <;> simp

theorem andImm (dr sr1 : Reg) (i : BitVec 5) : Statement (.andImm dr sr1 i) := fun _ => by
  ext k hk; simp [opcodeOf, encode, opcode, place]; interval_cases k <;> simp

theorem ldr (dr base : Reg) (o : BitVec 6) : Statement (.ldr dr base o) := fun _ => by
  ext k hk; simp [opcodeOf, encode, opcode, place]; interval_cases k <;> simp

theorem str (sr base : Reg) (o : BitVec 6) : Statement (.str sr base o) := fun _ => by
  ext k hk; simp [opcodeOf, encode, opcode, place]; interval_cases k <;> simp

theorem rti (w : Word) : Statement (.rti w) := fun h => by
  simpa [Instr.wellFormed, opcodeOf, encode, opcode] using h

theorem not (dr sr : Reg) : Statement (.not dr sr) := fun _ => by
  ext k hk; simp [opcodeOf, encode, opcode, place]; interval_cases k <;> simp

theorem ldi (dr : Reg) (o : BitVec 9) : Statement (.ldi dr o) := fun _ => by
  ext k hk; simp [opcodeOf, encode, opcode, place]; interval_cases k <;> simp

theorem sti (sr : Reg) (o : BitVec 9) : Statement (.sti sr o) := fun _ => by
  ext k hk; simp [opcodeOf, encode, opcode, place]; interval_cases k <;> simp

theorem jmp (base : Reg) : Statement (.jmp base) := fun _ => by
  ext k hk; simp [opcodeOf, encode, opcode, place]; interval_cases k <;> simp

theorem res (w : Word) : Statement (.res w) := fun h => by
  simpa [Instr.wellFormed, opcodeOf, encode, opcode] using h

theorem lea (dr : Reg) (o : BitVec 9) : Statement (.lea dr o) := fun _ => by
  ext k hk; simp [opcodeOf, encode, opcode, place]; interval_cases k <;> simp

theorem trap (v : Byte) : Statement (.trap v) := fun _ => by
  ext k hk; simp [opcodeOf, encode, opcode, place]; interval_cases k <;> simp

end Sys2Proof.Laws.EncodedOpcode
end

