-- ==== Sys2Proof/Laws/Step.lean ====
section
/-! SUPPORT. What exec answers for each instruction, and what one step can be. -/

namespace Sys2Proof.Machine

/-! ### exec, one equation per instruction -/

section
variable (s : State) (dr sr sr1 sr2 base : Reg)

theorem exec_br (m : BitVec 3) (o : BitVec 9) :
    exec (.br m o) s = .next (if s.branchTaken m then s.setPc (s.pcRelative o) else s) := rfl
theorem exec_addReg : exec (.addReg dr sr1 sr2) s = .next (s.setRegCC dr (s.reg sr1 + s.reg sr2)) := rfl
theorem exec_addImm (i : BitVec 5) : exec (.addImm dr sr1 i) s = .next (s.setRegCC dr (s.reg sr1 + sext i)) := rfl
theorem exec_andReg : exec (.andReg dr sr1 sr2) s = .next (s.setRegCC dr (s.reg sr1 &&& s.reg sr2)) := rfl
theorem exec_andImm (i : BitVec 5) : exec (.andImm dr sr1 i) s = .next (s.setRegCC dr (s.reg sr1 &&& sext i)) := rfl
theorem exec_not : exec (.not dr sr) s = .next (s.setRegCC dr (~~~ s.reg sr)) := rfl
theorem exec_ld (o : BitVec 9) : exec (.ld dr o) s = .next (s.loadFrom dr (s.pcRelative o)) := rfl
theorem exec_ldr (o : BitVec 6) : exec (.ldr dr base o) s = .next (s.loadFrom dr (s.baseOffset base o)) := rfl
theorem exec_ldi (o : BitVec 9) : exec (.ldi dr o) s =
    .next ((s.touch (s.pcRelative o)).loadFrom dr (s.memRead (s.pcRelative o)).1) := rfl
theorem exec_lea (o : BitVec 9) : exec (.lea dr o) s = .next (s.setRegCC dr (s.pcRelative o)) := rfl
theorem exec_st (o : BitVec 9) : exec (.st sr o) s = .next (s.memWrite (s.pcRelative o) (s.reg sr)) := rfl
theorem exec_str (o : BitVec 6) : exec (.str sr base o) s = .next (s.memWrite (s.baseOffset base o) (s.reg sr)) := rfl
theorem exec_sti (o : BitVec 9) : exec (.sti sr o) s =
    .next ((s.touch (s.pcRelative o)).memWrite (s.memRead (s.pcRelative o)).1 (s.reg sr)) := rfl
theorem exec_jsr (o : BitVec 11) : exec (.jsr o) s = .next (s.link.setPc (s.pcRelative o)) := rfl
theorem exec_jsrr : exec (.jsrr base) s = .next (s.link.setPc (s.link.reg base)) := rfl
theorem exec_jmp : exec (.jmp base) s = .next (s.setPc (s.reg base)) := rfl
theorem exec_trap (v : Byte) : exec (.trap v) s = .next (s.serviceRoutine v) := rfl
theorem exec_rti (w : Word) : exec (.rti w) s = .next (s.enter (.faulted 8#4 w (s.pc - 1#16))) := rfl
theorem exec_res (w : Word) : exec (.res w) s = .next (s.enter (.faulted 13#4 w (s.pc - 1#16))) := rfl

end

/-! ### One step, by phase (40_cycle.md R94) -/

theorem step_running {s : State} (h : s.phase = .running) : step s = exec (decode s.fetch.1) s.fetch.2 := by
  simp [step, h]

theorem step_waitInput {s : State} {k : InputKind} (h : s.phase = .waitInput k) : step s = s.waitInputStep k := by
  simp [step, h]

theorem step_stringOut {s : State} {a : Word} {pk : Bool} (h : s.phase = .stringOut a pk) :
    step s = s.stringOutStep a pk := by
  simp [step, h]

/-- Everything a step that answers a next state can be. -/
theorem step_cases {s t : State} (h : step s = .next t) :
    (s.phase = .running ∧ exec (decode s.fetch.1) s.fetch.2 = .next t) ∨
    (∃ k, s.phase = .waitInput k ∧ s.waitInputStep k = .next t) ∨
    (∃ a pk, s.phase = .stringOut a pk ∧ s.stringOutStep a pk = .next t) := by
  unfold step at h
  split at h
  · exact .inl ⟨‹_›, h⟩
  · exact .inr (.inl ⟨_, ‹_›, h⟩)
  · exact .inr (.inr ⟨_, _, ‹_›, h⟩)
  all_goals cases h

/-! ### Runs -/

theorem core_step (s : State) : core.step s = step s := rfl

@[simp] theorem runFor_zero (s : State) : runFor 0 s = .next s := rfl

/-- A run whose first step answers `t` is the rest of the run from `t`. -/
theorem runFor_next {s t : State} (h : step s = .next t) (k : Nat) : runFor (k + 1) s = runFor k t := by
  rw [runFor, h]

/-- A run stops at the first step that faults. -/
theorem runFor_fault {s : State} {r : Fault} (h : step s = .fault r) (k : Nat) : runFor (k + 1) s = .fault r := by
  rw [runFor, h]

/-- A run of `j + k` steps is the `k` steps after the first `j`. -/
theorem runFor_add {s t : State} {j : Nat} (h : runFor j s = .next t) (k : Nat) : runFor (j + k) s = runFor k t := by
  induction j generalizing s with
  | zero => rw [runFor_zero] at h; cases h; rw [Nat.zero_add]
  | succ j ih =>
    cases hu : step s with
    | next u =>
      rw [runFor_next hu] at h
      rw [show j + 1 + k = j + k + 1 by omega, runFor_next hu]
      exact ih h
    | fault r =>
      rw [runFor_fault hu] at h
      cases h
    | refused r => simp [runFor, hu] at h

/-- runFor is the run of the machine the host's interface holds. -/
theorem runFor_eq_core_run (k : Nat) (s : State) : runFor k s = Host.Core.run core k s := by
  induction k generalizing s with
  | zero => rfl
  | succ k ih =>
    simp only [runFor, Host.Core.run, core_step, ih]
    cases step s <;> rfl

end Sys2Proof.Machine
end

