-- ==== Sys2Proof/Laws/Runs.lean ====
section
/-! SUPPORT. Moves and infinite executions: the engine's move is step, and a string scan that the host keeps feeding is
a hang (45_trap.md R159, 60_exceptions.md R198; log 22). -/

namespace Sys2Proof.Machine

/-- The engine's move is a step that answers a next state. -/
theorem apply_engine {s t : State} : Move.engine.apply s = some t ↔ step s = .next t := by
  unfold Move.apply
  cases step s <;> simp

/-- In a phase that is not terminal an arriving character is appended, and nothing else happens. -/
theorem apply_input {s : State} (h : s.phase.terminal = false) (c : Byte) :
    (Move.input c).apply s = some { s with inq := s.inq ++ [c] } := by
  simp [Move.apply, State.inputArrival, h]

/-- After the run the host sees registers, pc, cond and memory as they are. -/
theorem inspect_of_terminal {s : State} (h : s.phase.terminal = true) :
    s.inspect = some (s.regs, s.pc, s.cond, s.mem) := by
  simp [State.inspect, h]

/-- During a run the host sees none of them (20_memory.md R58). -/
theorem inspect_of_not_terminal {s : State} (h : s.phase.terminal = false) : s.inspect = none := by
  simp [State.inspect, h]

/-! ### A scan that never ends -/

/-- A string phase over a memory with no zero cell but perhaps KBSR, and no zero code pending. -/
def EndlessScan (s : State) : Prop :=
  (∃ a packed, s.phase = .stringOut a packed) ∧ s.params.distinct ∧
  (∀ b, b ≠ s.params.kbsrAddr → s.mem.read b ≠ 0x0000#16) ∧ ∀ c ∈ s.inq, c ≠ 0x00#8

theorem charWord_ne_zero {c : Byte} (h : c ≠ 0x00#8) : charWord c ≠ 0x0000#16 := by
  revert h; revert c; decide

/-- With a character pending, a read keeps every cell but KBSR non-zero, and what it yields is not zero. -/
theorem EndlessScan.touch {s : State} (h : EndlessScan s) (hq : s.inq ≠ []) (a : Word) :
    (s.touch a).mem.read a ≠ 0x0000#16 ∧
    (∀ b, b ≠ s.params.kbsrAddr → (s.touch a).mem.read b ≠ 0x0000#16) ∧ ∀ c ∈ (s.touch a).inq, c ≠ 0x00#8 := by
  obtain ⟨-, -, hm, hc⟩ := h
  by_cases ha : a = s.params.kbsrAddr
  · subst ha
    obtain ⟨c, rest, hcr⟩ := List.exists_cons_of_ne_nil hq
    rw [hcr] at hc
    rw [State.touch_kbsr, State.poll_cons hcr]
    refine ⟨by simp [Memory.read_write_same, kbsrReady], fun b hb => ?_, fun x hx => hc x (by simp [hx])⟩
    rw [Memory.read_write_other _ hb]
    by_cases hd : b = s.params.kbdrAddr
    · subst hd
      rw [Memory.read_write_same]
      exact charWord_ne_zero (hc c (by simp))
    · rw [Memory.read_write_other _ hd]
      exact hm b hb
  · rw [State.touch_of_ne ha]
    exact ⟨hm a ha, hm, hc⟩

/-- With a character pending, the scan goes on to another endless scan. -/
theorem EndlessScan.step {s : State} (h : EndlessScan s) (hq : s.inq ≠ []) : ∃ t, step s = .next t ∧ EndlessScan t := by
  obtain ⟨⟨a, pk, hp⟩, hd, -⟩ := id h
  obtain ⟨hv, hm, hc⟩ := h.touch hq a
  refine ⟨_, (step_stringOut hp).trans (State.stringOutStep_nonzero pk hv), ⟨_, _, rfl⟩, ?_, ?_, ?_⟩
  · simpa using hd
  · simpa using hm
  · simpa using hc

theorem EndlessScan.arrival {s : State} (h : EndlessScan s) {c : Byte} (hc : c ≠ 0x00#8) :
    EndlessScan { s with inq := s.inq ++ [c] } := by
  obtain ⟨hp, hd, hm, hq⟩ := h
  refine ⟨hp, hd, hm, fun x hx => ?_⟩
  rcases List.mem_append.mp hx with hx | hx
  · exact hq x hx
  · simpa [List.mem_singleton.mp hx] using hc

/-- The host sends the code `c` before each step of the engine. -/
def feeding (c : Byte) (k : Nat) : Move := if k % 2 = 0 then .input c else .engine

/-- The states of the engine's steps, taken before each arrival. -/
def scanned (c : Byte) (s : State) : Nat → State
  | 0 => s
  | k + 1 =>
    match step { scanned c s k with inq := (scanned c s k).inq ++ [c] } with
    | .next t => t
    | .fault _ => s
    | .refused _ => s

/-- The states of the whole execution: after the arrival in the odd places. -/
def fed (c : Byte) (s : State) (k : Nat) : State :=
  if k % 2 = 0 then scanned c s (k / 2) else { scanned c s (k / 2) with inq := (scanned c s (k / 2)).inq ++ [c] }

theorem scanned_spec {c : Byte} (hc : c ≠ 0x00#8) {s : State} (h : EndlessScan s) (k : Nat) :
    EndlessScan (scanned c s k) ∧
    step { scanned c s k with inq := (scanned c s k).inq ++ [c] } = .next (scanned c s (k + 1)) := by
  have key : ∀ k, EndlessScan (scanned c s k) →
      EndlessScan (scanned c s (k + 1)) ∧
      step { scanned c s k with inq := (scanned c s k).inq ++ [c] } = .next (scanned c s (k + 1)) := by
    intro k hk
    obtain ⟨t, ht, hs⟩ := (hk.arrival hc).step (by simp)
    have e : scanned c s (k + 1) = t := by simp only [scanned, ht]
    rw [e]
    exact ⟨hs, ht⟩
  have all : ∀ k, EndlessScan (scanned c s k) := fun k => by
    induction k with
    | zero => exact h
    | succ k ih => exact (key k ih).1
  exact ⟨all k, (key k (all k)).2⟩

/-- An endless scan hangs, in phase STRING_OUT for ever, under a host that keeps sending a character. -/
theorem EndlessScan.hangs {c : Byte} (hc : c ≠ 0x00#8) {s : State} (h : EndlessScan s) :
    fed c s 0 = s ∧ HangOutsideWaits (feeding c) (fed c s) := by
  refine ⟨rfl, ⟨fun k => ?_, fun k => ⟨2 * k + 1, by omega, by simp [feeding]⟩⟩, 0, fun k _ => .inr ?_⟩
  · obtain ⟨hs, hstep⟩ := scanned_spec hc h (k / 2)
    obtain ⟨a, pk, hp⟩ := hs.1
    rcases Nat.mod_two_eq_zero_or_one k with hk | hk
    · rw [feeding, fed, fed, if_pos hk, if_pos hk, if_neg (by omega), show (k + 1) / 2 = k / 2 by omega]
      exact apply_input (by simp [hp, Phase.terminal]) c
    · rw [feeding, fed, fed, if_neg (by omega), if_neg (by omega), if_pos (by omega), show (k + 1) / 2 = k / 2 + 1 by omega]
      exact apply_engine.mpr hstep
  · obtain ⟨hp, -⟩ := (scanned_spec hc h (k / 2)).1
    unfold fed
    split <;> exact hp

end Sys2Proof.Machine
end

