-- ==== Sys2Proof/Tests/Slice0.lean ====
section
/-! SUPPORT. Small tests. Every expected result is from spec/95_test_vectors.md (the vector's id stands in the comment)
or from a rule's worked example. After them, a witness for each statement of Obligations that has hypotheses. -/

namespace Sys2Proof.Tests

open Sys2Proof Sys2Proof.Machine

/-! ### Helpers -/

/-- The result is a next state, and `p` holds of it. -/
def onNext (r : Result) (p : State → Bool) : Bool :=
  match r with
  | .next t => p t
  | .fault _ => false
  | .refused _ => false

theorem exists_of_onNext {r : Result} {p : State → Bool} (h : onNext r p = true) :
    ∃ t, r = .next t ∧ p t = true := by
  cases r with
  | next t => exact ⟨t, rfl, h⟩
  | fault _ => exact absurd h (by simp [onNext])
  | refused _ => exact absurd h (by simp [onNext])

/-- State.reset with some registers and some cells written. -/
def start (rs : List (Reg × Word)) (cells : List (Word × Word)) : State :=
  cells.foldl (fun s c => s.memWrite c.1 c.2) (rs.foldl (fun s r => s.setReg r.1 r.2) State.reset)

/-- One step that fetches the word `w`, in the state `start rs cells` with condition code `c` and pending input `q`. -/
def run1 (w : Nat) (rs : List (Reg × Word)) (cells : List (Word × Word)) (c : Cond) (q : List Byte) : Result :=
  step (({ start rs cells with cond := c, inq := q } : State).withFetchWord 16 w)

/-- The same with pc elsewhere than 0x3000. -/
def run1At (pc : Word) (w : Nat) (rs : List (Reg × Word)) (cells : List (Word × Word)) (c : Cond) (q : List Byte) :
    Result :=
  step (({ start rs cells with pc := pc, cond := c, inq := q } : State).withFetchWord 16 w)

/-! ### Well-formedness -/

theorem test_wellFormed_refuses_rti : (Instr.rti 0x1234#16).wellFormed = false := by decide

theorem test_wellFormed_refuses_res : (Instr.res 0x8000#16).wellFormed = false := by decide

theorem test_wellFormed_accepts :
    (Instr.rti 0x8FFF#16).wellFormed = true ∧ (Instr.res 0xD000#16).wellFormed = true ∧
    (Instr.addImm 0 0 31#5).wellFormed = true := by decide

/-! ### Decoding: words of 95_test_vectors.md, each with the instruction its row writes beside it -/

/-- B8, B3. -/
theorem test_decode_br : decode 0x0402#16 = .br 0b010#3 2#9 ∧ decode 0x03FF#16 = .br 0b001#3 511#9 := by decide

/-- A1, A5, A6. -/
theorem test_decode_addReg : decode 0x1283#16 = .addReg 1 2 3 ∧ decode 0x1904#16 = .addReg 4 4 4 ∧
    decode 0x129B#16 = .addReg 1 2 3 := by decide

/-- A10, A11. -/
theorem test_decode_addImm : decode 0x1030#16 = .addImm 0 0 16#5 ∧ decode 0x1BA0#16 = .addImm 5 6 0#5 := by decide

/-- M1, M2. -/
theorem test_decode_ld : decode 0x2204#16 = .ld 1 4#9 ∧ decode 0x25FF#16 = .ld 2 511#9 := by decide

/-- M3. -/
theorem test_decode_st : decode 0x33FE#16 = .st 1 510#9 := by decide

/-- J1, J4. -/
theorem test_decode_jsr : decode 0x4810#16 = .jsr 16#11 ∧ decode 0x4C00#16 = .jsr 0x400#11 := by decide

/-- J5, J7. -/
theorem test_decode_jsrr : decode 0x40C0#16 = .jsrr 3 ∧ decode 0x463F#16 = .jsrr 0 := by decide

/-- L1, L3. -/
theorem test_decode_andReg : decode 0x5283#16 = .andReg 1 2 3 ∧ decode 0x5282#16 = .andReg 1 2 2 := by decide

/-- L4, L6. -/
theorem test_decode_andImm : decode 0x5020#16 = .andImm 0 0 0#5 ∧ decode 0x5030#16 = .andImm 0 0 16#5 := by decide

/-- M5, M8. -/
theorem test_decode_ldr : decode 0x62BD#16 = .ldr 1 2 61#6 ∧ decode 0x66E0#16 = .ldr 3 3 32#6 := by decide

/-- M9, M10. -/
theorem test_decode_str : decode 0x7285#16 = .str 1 2 5#6 ∧ decode 0x749F#16 = .str 2 2 31#6 := by decide

/-- F1, F2, F3, and the neighbours of the illegal ranges (30_encoding.md R73). -/
theorem test_decode_undefined : decode 0x8000#16 = .rti 0x8000#16 ∧ decode 0x8FFF#16 = .rti 0x8FFF#16 ∧
    decode 0xD000#16 = .res 0xD000#16 ∧ decode 0xDEAD#16 = .res 0xDEAD#16 ∧ decode 0xDFFF#16 = .res 0xDFFF#16 ∧
    decode 0x7FFF#16 = .str 7 7 63#6 ∧ decode 0x9000#16 = .not 0 0 ∧ decode 0xCFFF#16 = .jmp 7 ∧
    decode 0xE000#16 = .lea 0 0#9 := by decide

/-- T1, T4. -/
theorem test_decode_not : decode 0x92BF#16 = .not 1 2 ∧ decode 0x96C0#16 = .not 3 3 := by decide

/-- M11. -/
theorem test_decode_ldi : decode 0xA001#16 = .ldi 0 1#9 := by decide

/-- M12. -/
theorem test_decode_sti : decode 0xB602#16 = .sti 3 2#9 := by decide

/-- J8, J9, J10. -/
theorem test_decode_jmp : decode 0xC080#16 = .jmp 2 ∧ decode 0xC1C0#16 = Instr.ret ∧ decode 0xCE3F#16 = .jmp 0 := by
  decide

/-- M13, M16. -/
theorem test_decode_lea : decode 0xE002#16 = .lea 0 2#9 ∧ decode 0xEB00#16 = .lea 5 0x100#9 := by decide

/-- The aliases of 30_encoding.md R77, and G11. -/
theorem test_decode_trap : decode 0xF020#16 = Instr.getc ∧ decode 0xF021#16 = Instr.out ∧
    decode 0xF022#16 = Instr.puts ∧ decode 0xF023#16 = Instr.inChar ∧ decode 0xF024#16 = Instr.putsp ∧
    decode 0xF025#16 = Instr.halt ∧ decode 0xF325#16 = Instr.halt := by decide

/-- The encoders of 30_encoding.md R78 on the operands of B8, A1, A7, M3, J1, J6, L4, M5, T1, M12, J9 and G10. -/
theorem test_encode : encode (.br 2#3 2#9) = 0x0402#16 ∧ encode (.addReg 1 2 3) = 0x1283#16 ∧
    encode (.addImm 0 0 31#5) = 0x103F#16 ∧ encode (.st 1 510#9) = 0x33FE#16 ∧ encode (.jsr 16#11) = 0x4810#16 ∧
    encode (.jsrr 7) = 0x41C0#16 ∧ encode (.andImm 0 0 0#5) = 0x5020#16 ∧ encode (.ldr 1 2 61#6) = 0x62BD#16 ∧
    encode (.not 1 2) = 0x92BF#16 ∧ encode (.sti 3 2#9) = 0xB602#16 ∧ encode .ret = 0xC1C0#16 ∧
    encode .halt = 0xF025#16 := by decide

/-- 30_encoding.md R60: one 16-bit word, no more. -/
theorem test_decodeTableWord : decodeTableWord 16 0x5020 = some (.andImm 0 0 0#5) ∧ decodeTableWord 32 0x5020 = none := by
  decide

/-- The table of section 2.1: the extremes of each width. -/
theorem test_sext : sext 0x10#5 = 0xFFF0#16 ∧ sext 0x0F#5 = 0x000F#16 ∧ sext 0x20#6 = 0xFFE0#16 ∧
    sext 0x1F#6 = 0x001F#16 ∧ sext 0x100#9 = 0xFF00#16 ∧ sext 0x0FF#9 = 0x00FF#16 ∧ sext 0x400#11 = 0xFC00#16 ∧
    sext 0x3FF#11 = 0x03FF#16 := by decide

/-! ### Steps -/

/-- B8, B3. -/
theorem test_br_taken :
    onNext (run1 0x0402 [] [] .z []) (fun t => t.pc == 0x3003#16 && t.cond == .z) ∧
    onNext (run1 0x03FF [] [] .p []) (fun t => t.pc == 0x3000#16) := by decide

/-- B1, B4, B7. -/
theorem test_br_corners :
    onNext (run1 0x0E05 [] [] .none []) (fun t => t.pc == 0x3001#16) ∧
    onNext (run1 0x03FF [] [] .z []) (fun t => t.pc == 0x3001#16) ∧
    onNext (run1At 0x0004#16 0x0FF0 [] [] .n []) (fun t => t.pc == 0xFFF5#16) := by decide

/-- A2. -/
theorem test_addReg_overflows :
    onNext (run1 0x1283 [(2, 0x7FFF#16), (3, 0x0001#16)] [] .none [])
      (fun t => t.reg 1 == 0x8000#16 && t.cond == .n && t.reg 2 == 0x7FFF#16 && t.pc == 0x3001#16) := by decide

/-- A3, A5. -/
theorem test_addReg_carry_and_doubling :
    onNext (run1 0x1283 [(2, 0xFFFF#16), (3, 0x0001#16)] [] .none []) (fun t => t.reg 1 == 0x0000#16 && t.cond == .z) ∧
    onNext (run1 0x1904 [(4, 0x4000#16)] [] .none []) (fun t => t.reg 4 == 0x8000#16 && t.cond == .n) := by decide

/-- A7, A9, A10. -/
theorem test_addImm :
    onNext (run1 0x103F [] [] .none []) (fun t => t.reg 0 == 0xFFFF#16 && t.cond == .n) ∧
    onNext (run1 0x102F [(0, 0x7FF5#16)] [] .none []) (fun t => t.reg 0 == 0x8004#16 && t.cond == .n) ∧
    onNext (run1 0x1030 [(0, 0x0010#16)] [] .none []) (fun t => t.reg 0 == 0x0000#16 && t.cond == .z) := by decide

/-- L1, L3. -/
theorem test_andReg :
    onNext (run1 0x5283 [(2, 0xF0F0#16), (3, 0x0FF0#16)] [] .none []) (fun t => t.reg 1 == 0x00F0#16 && t.cond == .p) ∧
    onNext (run1 0x5282 [(2, 0x8001#16)] [] .none []) (fun t => t.reg 1 == 0x8001#16 && t.cond == .n) := by decide

/-- L4, L6. -/
theorem test_andImm :
    onNext (run1 0x5020 [(0, 0xBEEF#16)] [] .none []) (fun t => t.reg 0 == 0x0000#16 && t.cond == .z) ∧
    onNext (run1 0x5030 [(0, 0x123F#16)] [] .none []) (fun t => t.reg 0 == 0x1230#16 && t.cond == .p) := by decide

/-- T3, T4. -/
theorem test_not :
    onNext (run1 0x92BF [(2, 0x8000#16)] [] .none []) (fun t => t.reg 1 == 0x7FFF#16 && t.cond == .p) ∧
    onNext (run1 0x96C0 [(3, 0x00FF#16)] [] .none []) (fun t => t.reg 3 == 0xFF00#16 && t.cond == .n) := by decide

/-- M1, M2. -/
theorem test_ld :
    onNext (run1 0x2204 [] [(0x3005#16, 0x0042#16)] .none []) (fun t => t.reg 1 == 0x0042#16 && t.cond == .p) ∧
    onNext (run1 0x25FF [] [] .none []) (fun t => t.reg 2 == 0x25FF#16 && t.cond == .p) := by decide

/-- M3: the cell is written and nothing else changes. -/
theorem test_st :
    onNext (run1 0x33FE [(1, 0xABCD#16)] [] .p [])
      (fun t => t.mem == [(0x2FFF, 0xABCD#16), (0x3000, 0x33FE#16)] && t.cond == .p) := by decide

/-- M4: a store over the next word, which the next step then runs. -/
theorem test_st_next_word :
    onNext (run1 0x3200 [(1, 0x1025#16)] [] .none [])
      (fun t => onNext (step t) (fun u => u.reg 0 == 0x0005#16 && u.cond == .p)) := by decide

/-- M5, M6. -/
theorem test_ldr :
    onNext (run1 0x62BD [(2, 0x4003#16)] [(0x4000#16, 0x8001#16)] .none [])
      (fun t => t.reg 1 == 0x8001#16 && t.reg 2 == 0x4003#16 && t.cond == .n) ∧
    onNext (run1 0x6240 [(1, 0x4000#16)] [(0x4000#16, 0x8000#16)] .none [])
      (fun t => t.reg 1 == 0x8000#16 && t.cond == .n) := by decide

/-- M7, M8. -/
theorem test_ldr_wraps :
    onNext (run1 0x6241 [(1, 0xFFFF#16)] [(0x0000#16, 0x0007#16)] .none []) (fun t => t.reg 1 == 0x0007#16) ∧
    onNext (run1 0x66E0 [(3, 0x0010#16)] [] .none []) (fun t => t.reg 3 == 0x0000#16 && t.cond == .z) := by decide

/-- M9, M10. -/
theorem test_str :
    onNext (run1 0x7285 [(1, 0x1234#16), (2, 0x5000#16)] [] .z [])
      (fun t => t.mem.read 0x5005#16 == 0x1234#16 && t.cond == .z) ∧
    onNext (run1 0x749F [(2, 0x5000#16)] [] .z []) (fun t => t.mem.read 0x501F#16 == 0x5000#16) := by decide

/-- M11. -/
theorem test_ldi :
    onNext (run1 0xA001 [(0, 0x0001#16)] [(0x3002#16, 0x4000#16)] .p []) (fun t => t.reg 0 == 0x0000#16 && t.cond == .z) := by
  decide

/-- M17, M18, at the addresses State.reset names. -/
theorem test_ldi_polls :
    onNext (run1 0xA001 [] [(0x3002#16, 0xFE00#16)] .none [0x41#8])
      (fun t => t.reg 0 == 0x8000#16 && t.cond == .n && t.mem.read 0xFE00#16 == 0x8000#16 &&
        t.mem.read 0xFE02#16 == 0x0041#16 && t.inq == []) ∧
    onNext (run1 0xA001 [] [(0x3002#16, 0xFE00#16), (0xFE02#16, 0x0055#16)] .none [])
      (fun t => t.reg 0 == 0x0000#16 && t.cond == .z && t.mem.read 0xFE02#16 == 0x0055#16) := by decide

/-- M12. -/
theorem test_sti :
    onNext (run1 0xB602 [(3, 0x0007#16)] [(0x3003#16, 0x5000#16)] .n [])
      (fun t => t.mem.read 0x5000#16 == 0x0007#16 && t.mem.read 0x3003#16 == 0x5000#16 && t.cond == .n) := by decide

/-- M14, M16. -/
theorem test_lea :
    onNext (run1At 0x0000#16 0xEBFF [] [] .none []) (fun t => t.reg 5 == 0x0000#16 && t.cond == .z) ∧
    onNext (run1At 0x8100#16 0xEB00 [] [] .none []) (fun t => t.reg 5 == 0x8001#16 && t.cond == .n) := by decide

/-- J1, J4. -/
theorem test_jsr :
    onNext (run1 0x4810 [] [] .p []) (fun t => t.reg 7 == 0x3001#16 && t.pc == 0x3011#16 && t.cond == .p) ∧
    onNext (run1 0x4C00 [] [] .p []) (fun t => t.reg 7 == 0x3001#16 && t.pc == 0x2C01#16) := by decide

/-- J5, J6. -/
theorem test_jsrr :
    onNext (run1 0x40C0 [(3, 0x4000#16)] [] .p []) (fun t => t.reg 7 == 0x3001#16 && t.pc == 0x4000#16) ∧
    onNext (run1 0x41C0 [(7, 0x5000#16)] [] .p []) (fun t => t.reg 7 == 0x3001#16 && t.pc == 0x3001#16) := by decide

/-- J8, J10. -/
theorem test_jmp :
    onNext (run1 0xC080 [(2, 0xFFFF#16)] [] .p []) (fun t => t.pc == 0xFFFF#16 && t.reg 7 == 0x0000#16) ∧
    onNext (run1 0xCE3F [] [] .p []) (fun t => t.pc == 0x0000#16) := by decide

/-- G3, G14, G10, G12. -/
theorem test_trap_one_step :
    onNext (run1 0xF021 [(0, 0x0A41#16), (7, 0x1111#16)] [] .z [])
      (fun t => t.outq == [0x41#8] && t.reg 7 == 0x1111#16 && t.cond == .z) ∧
    onNext (run1 0xF025 [] [] .z [])
      (fun t => t.outq == State.reset.params.haltNotice && t.phase == .halted && t.pc == 0x3001#16 && !t.runningFlag) ∧
    onNext (run1 0xF026 [] [] .z []) (fun t => t.phase == .running && t.outq == [] && t.pc == 0x3001#16) := by decide

/-- F1, F2 (RTI) and F3 (RES). -/
theorem test_undefined_opcodes :
    onNext (run1 0x8000 [] [] .z []) (fun t => t.phase == .faulted 8#4 0x8000#16 0x3000#16 && t.pc == 0x3001#16) ∧
    onNext (run1 0x8FFF [] [] .z []) (fun t => t.phase == .faulted 8#4 0x8FFF#16 0x3000#16 && t.outq == []) ∧
    onNext (run1At 0x4000#16 0xDEAD [] [] .z [])
      (fun t => t.phase == .faulted 13#4 0xDEAD#16 0x4000#16 && t.pc == 0x4001#16) := by decide

/-- F4, F5: the fetch at KBSR. -/
theorem test_fetch_at_kbsr :
    onNext (step { State.reset with pc := 0xFE00#16, inq := [0x71#8] })
      (fun t => t.phase == .faulted 8#4 0x8000#16 0xFE00#16 && t.mem.read 0xFE02#16 == 0x0071#16 && t.pc == 0xFE01#16) ∧
    onNext (step { State.reset with pc := 0xFE00#16 }) (fun t => t.phase == .running && t.pc == 0xFE01#16) := by decide

/-- G1: GETC's two steps. -/
theorem test_getc :
    onNext (run1 0xF020 [] [] .z [0x61#8]) (fun t => t.phase == .waitInput .getc &&
      onNext (step t) (fun u => u.reg 0 == 0x0061#16 && u.cond == .z && u.inq == [] && u.outq == [] &&
        u.pc == 0x3001#16 && u.phase == .running)) := by decide

/-- G7: IN's two steps. -/
theorem test_in :
    onNext (run1 0xF023 [] [] .z [0x79#8]) (fun t => t.outq == State.reset.params.inPrompt &&
      onNext (step t) (fun u => u.reg 0 == 0x0079#16 && u.outq == State.reset.params.inPrompt ++ [0x79#8])) := by decide

/-- G5, G8, G9: one STRING_OUT step on one cell. -/
theorem test_string_cell :
    onNext (step { start [] [(0x4000#16, 0x1248#16)] with phase := .stringOut 0x4000#16 false })
      (fun t => t.outq == [0x48#8] && t.phase == .stringOut 0x4001#16 false) ∧
    onNext (step { start [] [(0x4000#16, 0x6548#16)] with phase := .stringOut 0x4000#16 true })
      (fun t => t.outq == [0x48#8, 0x65#8]) ∧
    onNext (step { start [] [(0x4000#16, 0x4100#16)] with phase := .stringOut 0x4000#16 true })
      (fun t => t.outq == [0x00#8, 0x41#8]) := by decide

/-- G13 (its last step), and the wrap of 45_trap.md R159. -/
theorem test_string_ends_and_wraps :
    onNext (step { start [] [(0xFE00#16, 0x0041#16)] with phase := .stringOut 0xFE00#16 false })
      (fun t => t.phase == .running && t.outq == [] && t.mem.read 0xFE00#16 == 0x0000#16) ∧
    onNext (step { start [] [(0xFFFF#16, 0x0041#16)] with phase := .stringOut 0xFFFF#16 false })
      (fun t => t.phase == .stringOut 0x0000#16 false) := by decide

/-- K2 and K4: the poll of 20_memory.md R42. -/
theorem test_poll :
    (({ State.reset with inq := [0x61#8] } : State).memRead 0xFE00#16).1 = 0x8000#16 ∧
    ((({ State.reset with inq := [0x61#8] } : State).memWrite 0xFE00#16 0x1234#16).memRead 0xFE00#16).1 = 0x8000#16 ∧
    ((State.reset.memWrite 0xFE02#16 0x0055#16).memRead 0xFE02#16).1 = 0x0055#16 := by decide

/-- 10_state.md R24: the sign classes at their boundaries. -/
theorem test_condOf : condOf 0x0000#16 = .z ∧ condOf 0x0001#16 = .p ∧ condOf 0x7FFF#16 = .p ∧ condOf 0x8000#16 = .n ∧
    condOf 0xFFFF#16 = .n := by decide

/-- 10_state.md R33: reset. -/
theorem test_reset : State.reset.pc = 0x3000#16 ∧ State.reset.phase = .running ∧ State.reset.mem = [] ∧
    State.reset.outq = [] := by decide

/-- 40_cycle.md R97: the port inspect after each end of a run, and not during one (here P1's HALT and F3's fault). -/
theorem test_inspect :
    onNext (run1 0xF025 [(0, 0x0005#16)] [] .p [])
      (fun t => t.inspect == some (t.regs, 0x3001#16, .p, [(0x3000, 0xF025#16)])) ∧
    onNext (run1At 0x4000#16 0xDEAD [] [] .z [])
      (fun t => t.inspect == some (t.regs, 0x4001#16, .z, [(0x4000, 0xDEAD#16)])) ∧
    (State.reset.abort.bind State.inspect).isSome ∧ State.reset.inspect = none := by decide

/-! ### Witnesses: concrete states and operands that meet the hypotheses of each statement of Obligations, clause by
clause. A statement without hypotheses needs none. -/

/-- State.reset with two characters pending. -/
def keys : State := { State.reset with inq := [0x61#8, 0x62#8] }

theorem witness_DecodeOfEncode :
    (Instr.rti 0x8000#16).wellFormed = true ∧ (Instr.res 0xDFFF#16).wellFormed = true ∧
    (Instr.addReg 7 0 7).wellFormed = true := by decide

theorem witness_DontCareBits :
    ((0x1283#16 : Word) ^^^ 0x129B#16) &&& ~~~ dontCare (decode 0x1283#16) = 0#16 ∧
    ((0xF025#16 : Word) ^^^ 0xFF25#16) &&& ~~~ dontCare (decode 0xF025#16) = 0#16 ∧
    (0x8000#16 : Word).extractLsb' 12 4 = 8#4 ∧ (0x8FFF#16 : Word).extractLsb' 12 4 = 8#4 ∧
    (0xD000#16 : Word).extractLsb' 12 4 = 13#4 ∧ (0xDFFF#16 : Word).extractLsb' 12 4 = 13#4 := by decide

theorem witness_running : State.reset.phase = .running := by decide

/-- The last words of the illegal ranges and the first words outside them. -/
theorem witness_IllegalEncodings :
    onNext (exec (decode 0x8000#16) State.reset) (fun t => t.phase == .faulted 8#4 0x8000#16 0x2FFF#16) ∧
    onNext (exec (decode 0x8FFF#16) State.reset) (fun t => t.phase == .faulted 8#4 0x8FFF#16 0x2FFF#16) ∧
    onNext (exec (decode 0x7FFF#16) State.reset) (fun t => t.phase == .running) ∧
    onNext (exec (decode 0x9000#16) State.reset) (fun t => t.phase == .running) ∧
    onNext (exec (decode 0xDFFF#16) State.reset) (fun t => t.phase == .faulted 13#4 0xDFFF#16 0x2FFF#16) ∧
    onNext (exec (decode 0xCFFF#16) State.reset) (fun t => t.phase == .running) ∧
    onNext (exec (decode 0xE000#16) State.reset) (fun t => t.phase == .running) := by decide

/-- A word of every opcode and of both settings of each mode bit: the decode clauses of the result statements. -/
theorem witness_decode_clauses :
    ((0x1283#16 : Word).extractLsb' 12 4 = 1#4 ∧ (0x1283#16 : Word).getLsbD 5 = false) ∧
    ((0x103F#16 : Word).extractLsb' 12 4 = 1#4 ∧ (0x103F#16 : Word).getLsbD 5 = true) ∧
    ((0x5283#16 : Word).extractLsb' 12 4 = 5#4 ∧ (0x5283#16 : Word).getLsbD 5 = false) ∧
    ((0x5020#16 : Word).extractLsb' 12 4 = 5#4 ∧ (0x5020#16 : Word).getLsbD 5 = true) ∧
    ((0x4810#16 : Word).extractLsb' 12 4 = 4#4 ∧ (0x4810#16 : Word).getLsbD 11 = true) ∧
    ((0x41C0#16 : Word).extractLsb' 12 4 = 4#4 ∧ (0x41C0#16 : Word).getLsbD 11 = false) ∧
    (0x0402#16 : Word).extractLsb' 12 4 = 0#4 ∧ (0x2204#16 : Word).extractLsb' 12 4 = 2#4 ∧
    (0x33FE#16 : Word).extractLsb' 12 4 = 3#4 ∧ (0x62BD#16 : Word).extractLsb' 12 4 = 6#4 ∧
    (0x7285#16 : Word).extractLsb' 12 4 = 7#4 ∧ (0x92BF#16 : Word).extractLsb' 12 4 = 9#4 ∧
    (0xA001#16 : Word).extractLsb' 12 4 = 10#4 ∧ (0xB602#16 : Word).extractLsb' 12 4 = 11#4 ∧
    (0xC1C0#16 : Word).extractLsb' 12 4 = 12#4 ∧ (0xE002#16 : Word).extractLsb' 12 4 = 14#4 ∧
    (0xF025#16 : Word).extractLsb' 12 4 = 15#4 := by decide

/-- The three cases of a read (ReadOutcome): elsewhere than KBSR, at KBSR with nothing pending, at KBSR with a
character pending. The two neighbours of KBSR are plain cells. -/
theorem witness_ReadOutcome :
    (0xFDFF#16 : Word) ≠ keys.params.kbsrAddr ∧ (0xFE01#16 : Word) ≠ keys.params.kbsrAddr ∧
    ((0xFE00#16 : Word) = State.reset.params.kbsrAddr ∧ State.reset.inq = []) ∧
    ((0xFE00#16 : Word) = keys.params.kbsrAddr ∧ keys.inq = 0x61#8 :: [0x62#8] ∧ keys.params.distinct) := by decide

/-- STI with its pointer cell elsewhere than KBSR and at it. -/
theorem witness_StiStores :
    State.reset.pc + (2#9 : BitVec 9).signExtend 16 ≠ State.reset.params.kbsrAddr ∧
    ({ State.reset with pc := 0xFDFF#16 } : State).pc + (1#9 : BitVec 9).signExtend 16 = State.reset.params.kbsrAddr := by
  decide

/-- BR taken for each flag, and not taken: with mask 000, with another flag's mask, and with cond NONE. -/
theorem witness_BrTests :
    ((4#3 : BitVec 3).getLsbD 2 = true ∧ ({ State.reset with cond := .n } : State).cond = .n) ∧
    ((2#3 : BitVec 3).getLsbD 1 = true ∧ ({ State.reset with cond := .z } : State).cond = .z) ∧
    ((1#3 : BitVec 3).getLsbD 0 = true ∧ ({ State.reset with cond := .p } : State).cond = .p) ∧
    ¬ (((0#3 : BitVec 3).getLsbD 2 = true ∧ Cond.n = .n) ∨ ((0#3 : BitVec 3).getLsbD 1 = true ∧ Cond.n = .z) ∨
      ((0#3 : BitVec 3).getLsbD 0 = true ∧ Cond.n = .p)) ∧
    ¬ (((3#3 : BitVec 3).getLsbD 2 = true ∧ Cond.n = .n) ∨ ((3#3 : BitVec 3).getLsbD 1 = true ∧ Cond.n = .z) ∨
      ((3#3 : BitVec 3).getLsbD 0 = true ∧ Cond.n = .p)) ∧
    ¬ (((7#3 : BitVec 3).getLsbD 2 = true ∧ State.reset.cond = .n) ∨
      ((7#3 : BitVec 3).getLsbD 1 = true ∧ State.reset.cond = .z) ∨
      ((7#3 : BitVec 3).getLsbD 0 = true ∧ State.reset.cond = .p)) := by decide

/-- The unmapped vectors at the edges of their two ranges. -/
theorem witness_TrapDispatches :
    (0x00#8 : Byte).toNat < 0x20 ∧ (0x1F#8 : Byte).toNat < 0x20 ∧ 0x25 < (0x26#8 : Byte).toNat ∧
    0x25 < (0xFF#8 : Byte).toNat := by decide

theorem witness_SecondStatusRead :
    State.reset.params.distinct ∧ State.reset.inq = [] ∧
    ({ State.reset with inq := [0x61#8] } : State).params.distinct ∧
    ({ State.reset with inq := [0x61#8] } : State).inq = [0x61#8] := by decide

/-- WAIT_INPUT of both kinds, with nothing and with a character pending. -/
theorem witness_WaitInput :
    (({ State.reset with phase := .waitInput .getc } : State).phase = .waitInput .getc ∧
      ({ State.reset with phase := .waitInput .getc } : State).inq = []) ∧
    (({ keys with phase := .waitInput .inEcho } : State).phase = .waitInput .inEcho ∧
      ({ keys with phase := .waitInput .inEcho } : State).inq = 0x61#8 :: [0x62#8]) := by decide

/-- A state about to emit the cells 0x6548, 0x006C and then a zero cell, packed or not. -/
def scan (packed : Bool) : State :=
  { start [] [(0x4000#16, 0x6548#16), (0x4001#16, 0x006C#16)] with phase := .stringOut 0x4000#16 packed }

/-- STRING_OUT on a zero cell, on a cell with a high byte, and on one whose high byte is zero. -/
theorem witness_StringOut :
    (scan true).phase = .stringOut 0x4000#16 true ∧ ((scan true).memRead 0x4000#16).1 ≠ 0#16 ∧
    ((scan true).memRead 0x4000#16).1.extractLsb' 8 8 ≠ 0#8 ∧
    ((scan true).memRead 0x4001#16).1 ≠ 0#16 ∧ ((scan true).memRead 0x4001#16).1.extractLsb' 8 8 = 0#8 ∧
    (scan false).phase = .stringOut 0x4000#16 false ∧ ((scan false).memRead 0x4002#16).1 = 0#16 := by decide

/-- GETC and IN fetched from 0x3000, with nothing and with a character pending. -/
theorem witness_Getc_In :
    (let s := State.reset.withFetchWord 16 0xF020
     s.phase = .running ∧ s.pc ≠ s.params.kbsrAddr ∧ decode (s.mem.read s.pc) = .trap 0x20#8 ∧ s.inq = []) ∧
    (let s := keys.withFetchWord 16 0xF020
     s.phase = .running ∧ s.pc ≠ s.params.kbsrAddr ∧ decode (s.mem.read s.pc) = .trap 0x20#8 ∧
       s.inq = 0x61#8 :: [0x62#8]) ∧
    (let s := State.reset.withFetchWord 16 0xF023
     s.phase = .running ∧ s.pc ≠ s.params.kbsrAddr ∧ decode (s.mem.read s.pc) = .trap 0x23#8 ∧ s.inq = []) ∧
    (let s := keys.withFetchWord 16 0xF023
     s.phase = .running ∧ s.pc ≠ s.params.kbsrAddr ∧ decode (s.mem.read s.pc) = .trap 0x23#8 ∧
       s.inq = 0x61#8 :: [0x62#8]) := by decide

/-- A string of two cells at 0x4000, which R0 points to, and the TRAP `w` at 0x3000. -/
def hello (w : Nat) : State :=
  (start [(0, 0x4000#16)] [(0x4000#16, 0x6548#16), (0x4001#16, 0x006C#16)]).withFetchWord 16 w

/-- G8: PUTSP of two cells (n = 2). -/
theorem witness_PutspEmits :
    (hello 0xF024).phase = .running ∧ (hello 0xF024).pc ≠ (hello 0xF024).params.kbsrAddr ∧
    decode ((hello 0xF024).mem.read (hello 0xF024).pc) = .trap 0x24#8 ∧
    (∀ k, k ≤ 2 → (hello 0xF024).reg 0 + BitVec.ofNat 16 k ≠ (hello 0xF024).params.kbsrAddr) ∧
    (∀ k, k < 2 → (hello 0xF024).mem.read ((hello 0xF024).reg 0 + BitVec.ofNat 16 k) ≠ 0#16) ∧
    (hello 0xF024).mem.read ((hello 0xF024).reg 0 + BitVec.ofNat 16 2) = 0#16 := by decide

/-- PUTS of two cells (n = 2), and the empty string (n = 0, G6) at an address R0 holds at reset. -/
theorem witness_PutsEmits :
    ((hello 0xF022).phase = .running ∧ (hello 0xF022).pc ≠ (hello 0xF022).params.kbsrAddr ∧
      decode ((hello 0xF022).mem.read (hello 0xF022).pc) = .trap 0x22#8 ∧
      (∀ k, k ≤ 2 → (hello 0xF022).reg 0 + BitVec.ofNat 16 k ≠ (hello 0xF022).params.kbsrAddr) ∧
      (∀ k, k < 2 → (hello 0xF022).mem.read ((hello 0xF022).reg 0 + BitVec.ofNat 16 k) ≠ 0#16) ∧
      (hello 0xF022).mem.read ((hello 0xF022).reg 0 + BitVec.ofNat 16 2) = 0#16) ∧
    (let s := State.reset.withFetchWord 16 0xF022
     s.phase = .running ∧ s.pc ≠ s.params.kbsrAddr ∧ decode (s.mem.read s.pc) = .trap 0x22#8 ∧
       (∀ k, k ≤ 0 → s.reg 0 + BitVec.ofNat 16 k ≠ s.params.kbsrAddr) ∧
       s.mem.read (s.reg 0 + BitVec.ofNat 16 0) = 0#16) := by decide

theorem witness_StringScanEnds : ∃ a, (scan true).phase = .stringOut a true := ⟨_, rfl⟩

/-- The step of a running state, fetched elsewhere than at KBSR (its two neighbours among them), and at KBSR with nothing
and with a character pending. -/
theorem witness_StepRuns :
    (State.reset.phase = .running ∧ State.reset.pc ≠ State.reset.params.kbsrAddr) ∧
    ({ keys with pc := 0xFDFF#16 } : State).pc ≠ keys.params.kbsrAddr ∧
    ({ keys with pc := 0xFE01#16 } : State).pc ≠ keys.params.kbsrAddr ∧
    (let s : State := { State.reset with pc := 0xFE00#16 }
     s.phase = .running ∧ s.pc = s.params.kbsrAddr ∧ s.inq = []) ∧
    (let s : State := { keys with pc := 0xFE00#16 }
     s.phase = .running ∧ s.pc = s.params.kbsrAddr ∧ s.inq ≠ []) := by decide

/-- A store at pc, fetched next (FetchSeesTheStore): M4's state after its store. -/
theorem witness_FetchSeesTheStore :
    State.reset.phase = .running ∧ State.reset.pc ≠ State.reset.params.kbsrAddr ∧
    onNext (step (State.reset.memWrite State.reset.pc 0x1025#16)) (fun t => t.reg 0 == 0x0005#16) := by decide

/-- TRAP with an unmapped vector at 0x3000, at the edges of the two ranges. -/
theorem witness_UnmappedVectors :
    (let s := State.reset.withFetchWord 16 0xF01F
     s.phase = .running ∧ s.pc ≠ s.params.kbsrAddr ∧ decode (s.mem.read s.pc) = .trap 0x1F#8) ∧
    (let s := State.reset.withFetchWord 16 0xF026
     s.phase = .running ∧ s.pc ≠ s.params.kbsrAddr ∧ decode (s.mem.read s.pc) = .trap 0x26#8) ∧
    (0x1F#8 : Byte).toNat < 0x20 ∧ 0x25 < (0x26#8 : Byte).toNat := by decide

theorem witness_SetCc : flagDest (.addReg 4 4 4) = some 4 ∧ flagDest (.ldr 1 1 0#6) = some 1 := by decide

theorem witness_stuck : ({ State.reset with phase := .waitInput .inEcho } : State).stuck := ⟨⟨_, rfl⟩, rfl⟩

/-- Both sides of StepExistsUnlessTerminalOrWaiting. -/
theorem witness_StepExists :
    onNext (step State.reset) (fun _ => true) ∧
    step { State.reset with phase := .waitInput .getc } = .fault (.waitingForInput .getc) ∧
    step { State.reset with phase := .halted } = .fault .halted ∧
    step { State.reset with phase := .faulted 8#4 0x8000#16 0x3000#16 } =
      .fault (.undefinedOpcode 8#4 0x8000#16 0x3000#16) ∧
    step { State.reset with phase := .aborted } = .fault .aborted := ⟨by decide, rfl, rfl, rfl, rfl⟩

/-- A step of a WAIT_INPUT and of a STRING_OUT phase, and an instruction with and without a flag destination. -/
theorem witness_OnlySevenWriteCond :
    (∃ t, step { keys with phase := .waitInput .inEcho } = .next t ∧ (t.reg 0 == 0x0061#16) = true) ∧
    (∃ t, step (scan true) = .next t ∧ (t.phase == .stringOut 0x4001#16 true) = true) ∧
    (scan true).phase ≠ .running ∧ flagDest (.lea 3 0#9) = some 3 ∧ flagDest (.trap 0x20#8) = none ∧
    (∃ t, exec (.st 1 0#9) State.reset = .next t ∧ (t.cond == .none) = true) :=
  ⟨exists_of_onNext (by decide), exists_of_onNext (by decide), by decide, rfl, rfl, exists_of_onNext (by decide)⟩

theorem witness_CondStaysSet :
    ({ State.reset with cond := .p } : State).cond ≠ .none ∧
    ∃ t, step { State.reset with cond := .p } = .next t ∧ (t.cond == .p) = true :=
  ⟨by decide, exists_of_onNext (by decide)⟩

theorem witness_OnlyNamedRegisters :
    ∃ t, step { keys with phase := .waitInput .getc } = .next t ∧ (t.reg 0 == 0x0061#16 && t.reg 1 == 0x0000#16) = true :=
  exists_of_onNext (by decide)

theorem witness_OnlyControlTransfers :
    writesPc (.trap 0x25#8) = false ∧ writesPc (.lea 0 0#9) = false ∧ State.reset.branchTaken 7#3 = false ∧
    ({ State.reset with cond := .p } : State).branchTaken 6#3 = false := by decide

/-- An address neither stored to nor polled: beside the address of a store, the device cells when KBSR is not read,
and an ordinary cell when it is. -/
theorem witness_MemoryChanges :
    (storeAddr (.st 0 2#9) State.reset ≠ some 0x3003#16 ∧
      State.reset.params.kbsrAddr ∉ readAddrs (.st 0 2#9) State.reset) ∧
    (storeAddr (.ld 0 0#9) State.reset ≠ some 0xFE00#16 ∧
      State.reset.params.kbsrAddr ∉ readAddrs (.ld 0 0#9) State.reset) ∧
    (let s : State := { keys with pc := 0xFE00#16 }
     storeAddr (.ld 0 0#9) s ≠ some 0xFE01#16 ∧ s.params.kbsrAddr ∈ readAddrs (.ld 0 0#9) s ∧
       (0xFE01#16 : Word) ≠ s.params.kbsrAddr ∧ (0xFE01#16 : Word) ≠ s.params.kbdrAddr) := by decide

theorem witness_HaltedOnlyByTrapHalt :
    ∃ t, step (State.reset.withFetchWord 16 0xF025) = .next t ∧ (t.phase == .halted) = true :=
  exists_of_onNext (by decide)

/-- F4: a fault whose fetch polled. -/
theorem witness_FaultsArePrecise :
    ∃ t, step { keys with pc := 0xFE00#16 } = .next t ∧ (t.phase == .faulted 8#4 0x8000#16 0xFE00#16) = true :=
  exists_of_onNext (by decide)

/-- A step that takes one character, and an LDI that takes two: its pointer cell is KBSR, here at 0x8000, which the first
poll makes its own address (43_load_store.md R124). -/
theorem witness_InputIsConsumed :
    (∃ t, step { keys with phase := .waitInput .getc } = .next t ∧ (t.inq == keys.inq.drop 1) = true) ∧
    (∃ t, step (({ keys with params := { keys.params with kbsrAddr := 0x8000#16 }, pc := 0x7FFF#16 } :
        State).withFetchWord 16 0xA000) = .next t ∧ (t.inq == keys.inq.drop 2) = true) :=
  ⟨exists_of_onNext (by decide), exists_of_onNext (by decide)⟩

theorem witness_OutputIsAppendOnly :
    ∃ t, step { scan true with outq := [0x21#8] } = .next t ∧ (t.outq == [0x21#8, 0x48#8, 0x65#8]) = true :=
  exists_of_onNext (by decide)

theorem witness_ParametersNeverChange :
    ∃ t, step State.reset = .next t ∧ (t.params == State.reset.params) = true := exists_of_onNext (by decide)

/-- S3: JSR #2 at 0x3000, RET at 0x3003. -/
theorem witness_CallReturn :
    (let s := (start [] [(0x3003#16, 0xC1C0#16)]).withFetchWord 16 0x4802
     s.phase = .running ∧ s.pc ≠ s.params.kbsrAddr ∧
       s.pc + 1#16 + (2#11 : BitVec 11).signExtend 16 ≠ s.params.kbsrAddr ∧
       decode (s.mem.read s.pc) = .jsr 2#11 ∧
       decode (s.mem.read (s.pc + 1#16 + (2#11 : BitVec 11).signExtend 16)) = .jmp 7) := by decide

/-- The invariant holds of a state that steps. -/
theorem witness_StepKeepsTheInvariant :
    keys.inv ∧ ∃ t, step { keys with pc := 0xFE00#16 } = .next t ∧
      (t.mem == [(0xFE00, 0x8000#16), (0xFE02, 0x0061#16)]) = true :=
  ⟨by decide, exists_of_onNext (by decide)⟩

theorem witness_ResetHasTheInvariant : resetDraws.params.distinct := by decide

/-- The image ends exactly at the last cell; one word more has no answer. -/
theorem witness_BootLeavesTheResetState :
    (0xFFFE#16 : Word).toNat + [0x1025#16, (0xF025#16 : Word)].length ≤ 65536 ∧
    (0xFFFD#16 : Word).toNat < (0xFFFE#16 : Word).toNat ∧
    (0x3000#16 : Word).toNat + [(0x1025#16 : Word)].length ≤ (0x3001#16 : Word).toNat ∧
    State.boot resetDraws 0xFFFF#16 [0x1025#16, 0xF025#16] = none := by decide

/-- A reachable state: the program of one HALT, booted and run for one engine move. -/
theorem witness_Reachable : ∃ t, Reachable t ∧ (t.phase == .halted) = true :=
  ⟨_, ⟨resetDraws, 0x3000#16, [0xF025#16], _, [.input 0x61#8, .engine], by decide, rfl, rfl⟩, by decide⟩

theorem witness_HostMoves :
    State.reset.phase.terminal = false ∧ (Phase.waitInput .getc).terminal = false ∧
    (Phase.stringOut 0x4000#16 true).terminal = false ∧ Phase.halted.terminal = true ∧
    (Phase.faulted 8#4 0x8000#16 0x3000#16).terminal = true ∧ Phase.aborted.terminal = true := by decide

/-- Exactly two characters pending, and a step that takes one. -/
theorem witness_ArrivalCommutes :
    2 ≤ keys.inq.length ∧
    ∃ t, step { keys with phase := .waitInput .getc } = .next t ∧ (t.inq == [0x62#8]) = true :=
  ⟨by decide, exists_of_onNext (by decide)⟩

/-- A hang in phase RUNNING: BRnzp #-1 with cond P branches to itself (41_branch.md R100). -/
def selfLoop : State := ({ State.reset with cond := .p } : State).withFetchWord 16 0x0FFF

theorem selfLoop_step : step selfLoop = .next selfLoop := rfl

theorem witness_AHangNeverEnds :
    HangOutsideWaits (fun _ => .engine) (fun _ => selfLoop) ∧ selfLoop.hangs := by
  refine ⟨⟨⟨fun _ => apply_engine.mpr selfLoop_step, fun k => ⟨k, Nat.le_refl k, rfl⟩⟩, 0, fun _ _ => .inl rfl⟩, fun k => ?_⟩
  refine ⟨selfLoop, ?_⟩
  induction k with
  | zero => rfl
  | succ k ih => rw [runFor_next selfLoop_step]; exact ih

/-- Memory with 0x0001 in every cell: no string in it ends. -/
def ones : Memory := (List.range 65536).map fun a => (a, 0x0001#16)

theorem lookup_ones (l : List Nat) (k : Nat) (h : k ∈ l) : Memory.lookup (l.map fun a => (a, 0x0001#16)) k = 0x0001#16 := by
  induction l with
  | nil => simp at h
  | cons a l ih =>
    rw [List.map_cons, Memory.lookup]
    split
    · rfl
    · exact ih (by simpa [show k ≠ a from fun e => by simp_all] using h)

/-- A PUTS scan in phase STRING_OUT for ever, which the host keeps feeding (45_trap.md R159; log 22). -/
theorem witness_string_hang :
    let s : State := { State.reset with mem := ones, phase := .stringOut 0x4000#16 false }
    fed 0x61#8 s 0 = s ∧ HangOutsideWaits (feeding 0x61#8) (fed 0x61#8 s) := by
  refine EndlessScan.hangs (by decide) ⟨⟨_, _, rfl⟩, by decide, fun b _ => ?_, by simp [State.reset, State.resetWith, resetDraws]⟩
  have : Memory.read ones b = 0x0001#16 := lookup_ones _ _ (List.mem_range.mpr b.isLt)
  rw [this]; decide

end Sys2Proof.Tests
end

/-! The statements of 00_scope.md: the widening of fields and character codes (R10), and the open parameters, which
no step writes (R8). -/

namespace Sys2Proof.Machine

/-! ### Sign and zero extension (00_scope.md R10) -/

/-- No bit is lost in widening, so the signed value is kept. -/
theorem sext_toInt {n : Nat} (hn : n ≤ 16) (f : BitVec n) : (sext f).toInt = f.toInt :=
  BitVec.toInt_signExtend_of_le hn

/-- The bits of the field, and above them copies of its sign bit. -/
theorem sext_getLsbD {n k : Nat} (f : BitVec n) (hk : k < 16) :
    (sext f).getLsbD k = if k < n then f.getLsbD k else f.getLsbD (n - 1) := by
  rw [sext, BitVec.getLsbD_signExtend, BitVec.msb_eq_getLsbD_last]
  simp [hk]

theorem charWord_toNat (c : Byte) : (charWord c).toNat = c.toNat :=
  BitVec.toNat_setWidth_of_le (by decide)

/-- A widened field lies where the two's-complement numbers of its own width lie. -/
theorem sext_toInt_bounds {n : Nat} (hn : n ≤ 16) (f : BitVec n) :
    -2 ^ n ≤ 2 * (sext f).toInt ∧ 2 * (sext f).toInt < 2 ^ n := by
  rw [sext_toInt hn]
  exact ⟨BitVec.le_two_mul_toInt, BitVec.two_mul_toInt_lt⟩

/-- Settles O6: each range is `sext_toInt_bounds` at the width of the field. -/
theorem fieldsExtendToTheirSignedValue : Obligations.FieldsExtendToTheirSignedValue := by
  refine ⟨fun n f hn => ⟨sext_toInt hn f, fun k hk => sext_getLsbD f hk⟩, charWord_toNat, ?_, ?_, ?_, ?_⟩
  all_goals
    intro f
    have := sext_toInt_bounds (by decide) f
    omega

/-! ### What each operation leaves of the parameters (00_scope.md R8) -/

section
variable (s : State)

@[simp] theorem State.loadFrom_params (dr : Reg) (a : Word) : (s.loadFrom dr a).params = s.params := by
  simp [State.loadFrom_eq]

@[simp] theorem State.link_params : s.link.params = s.params := by
  simp [State.link_eq]

@[simp] theorem State.fetch_params : s.fetch.2.params = s.params := by
  simp [State.fetch_snd]

@[simp] theorem State.serviceRoutine_params (v : Byte) : (s.serviceRoutine v).params = s.params := by
  obtain ⟨p, bs, h⟩ := s.serviceRoutine_cases v
  rw [h]

end

theorem State.waitInputStep_params {s t : State} {k : InputKind} (h : s.waitInputStep k = .next t) :
    t.params = s.params := by
  obtain ⟨c, rest, -, rfl⟩ := State.waitInputStep_cases h
  rfl

theorem State.stringOutStep_params {s t : State} {a : Word} {pk : Bool} (h : s.stringOutStep a pk = .next t) :
    t.params = s.params := by
  rcases State.stringOutStep_cases h with ⟨-, rfl⟩ | ⟨-, rfl⟩ <;> simp

/-- The meaning of no instruction writes the parameters: each ends in operations that keep them. -/
theorem exec_params {i : Instr} {s t : State} (h : exec i s = .next t) : t.params = s.params := by
  cases i <;> cases h
  case br m o => split <;> simp
  case addReg | addImm | andReg | andImm | not | lea => exact State.setRegCC_params ..
  case ld | ldr => exact State.loadFrom_params ..
  case st | str => exact State.memWrite_params ..
  case ldi | sti | jsr | jsrr => simp
  case jmp => exact State.setPc_params ..
  case trap v => exact s.serviceRoutine_params v
  case rti | res => exact State.enter_params ..

/-- Settles O51, by the phase the step is taken in. -/
theorem parametersNeverChange : Obligations.ParametersNeverChange := by
  intro s t h
  rcases step_cases h with ⟨-, h⟩ | ⟨k, -, h⟩ | ⟨a, pk, -, h⟩
  · exact (exec_params h).trans s.fetch_params
  · exact State.waitInputStep_params h
  · exact State.stringOutStep_params h

end Sys2Proof.Machine

/-! The statements of 10_state.md: what an instruction and a later step of a service routine may write, what a
step keeps, and the state after reset and boot. -/

namespace Sys2Proof.Machine

/-! ### A sequence of reads (20_memory.md R42) -/

/-- The state after reads of the addresses `as`, in order. -/
def State.reads (s : State) (as : List Word) : State := as.foldl State.touch s

section
variable (s : State) (as : List Word)

@[simp] theorem State.reads_nil : s.reads [] = s := rfl
@[simp] theorem State.reads_cons (a : Word) : s.reads (a :: as) = (s.touch a).reads as := rfl

@[simp] theorem State.reads_regs : (s.reads as).regs = s.regs := by
  induction as generalizing s <;> simp [*]
@[simp] theorem State.reads_reg (r : Reg) : (s.reads as).reg r = s.reg r := by simp [State.reg]
@[simp] theorem State.reads_pc : (s.reads as).pc = s.pc := by
  induction as generalizing s <;> simp [*]
@[simp] theorem State.reads_cond : (s.reads as).cond = s.cond := by
  induction as generalizing s <;> simp [*]
@[simp] theorem State.reads_phase : (s.reads as).phase = s.phase := by
  induction as generalizing s <;> simp [*]
@[simp] theorem State.reads_outq : (s.reads as).outq = s.outq := by
  induction as generalizing s <;> simp [*]

variable {s}

theorem State.reads_mem_wf (h : s.mem.wf = true) : (s.reads as).mem.wf = true := by
  induction as generalizing s with
  | nil => exact h
  | cons a as ih => exact ih (State.touch_mem_wf h a)

/-- Each read takes at most one character, the oldest. -/
theorem State.reads_inq : ∃ k ≤ as.length, (s.reads as).inq = s.inq.drop k := by
  induction as generalizing s with
  | nil => exact ⟨0, le_rfl, rfl⟩
  | cons a as ih =>
    obtain ⟨k, hk, e⟩ := ih (s := s.touch a)
    rcases s.touch_inq a with h | h
    · exact ⟨k, hk.trans (Nat.le_succ _), by rw [State.reads_cons, e, h]⟩
    · exact ⟨k + 1, Nat.succ_le_succ hk, by rw [State.reads_cons, e, h, List.drop_tail]⟩

end

/-! ### What an instruction can do -/

/-- Everything the meaning of `i` can do in state `s`, by the kind of its effect. -/
inductive Effect (i : Instr) (s : State) : State → Prop
  /-- The seven flag-affecting instructions (10_state.md R25). -/
  | setsReg (dr : Reg) (v : Word) (flag : flagDest i = some dr) (dest : destRegs i = [dr]) :
      Effect i s ((s.reads (readAddrs i s)).setRegCC dr v)
  /-- ST, STR and STI (20_memory.md R43). -/
  | stores (a v : Word) (store : storeAddr i s = some a) (flag : flagDest i = none) (dest : destRegs i = []) :
      Effect i s ((s.reads (readAddrs i s)).memWrite a v)
  /-- BR not taken (41_branch.md R100). -/
  | stays (jump : writesPc i = true) (flag : flagDest i = none) (dest : destRegs i = []) : Effect i s s
  /-- BR taken, and JMP (44_jump.md R142). -/
  | jumps (target : Word) (jump : writesPc i = true) (flag : flagDest i = none) (dest : destRegs i = []) :
      Effect i s (s.setPc target)
  /-- JSR and JSRR (44_jump.md R140, R141). -/
  | calls (target : Word) (jump : writesPc i = true) (flag : flagDest i = none) (dest : destRegs i = [7]) :
      Effect i s (s.link.setPc target)
  /-- TRAP (45_trap.md R150). -/
  | serves (vect8 : Byte) (trap : i = .trap vect8) : Effect i s (s.serviceRoutine vect8)
  /-- RTI and RES (60_exceptions.md R182). -/
  | faults (opcode : BitVec 4) (word : Word) (undefined : i = .rti word ∨ i = .res word) :
      Effect i s (s.raiseUndefinedOpcode opcode word)

/-- Every instruction answers a next state, one of its effects. -/
theorem exec_effect (i : Instr) (s : State) : ∃ t, exec i s = .next t ∧ Effect i s t := by
  cases i
  case br m o =>
    rw [exec_br]
    split
    exacts [⟨_, rfl, .jumps _ rfl rfl rfl⟩, ⟨_, rfl, .stays rfl rfl rfl⟩]
  case addReg | addImm | andReg | andImm | not | ld | ldr | ldi | lea => exact ⟨_, rfl, .setsReg _ _ rfl rfl⟩
  case st | str | sti => exact ⟨_, rfl, .stores _ _ rfl rfl rfl⟩
  case jsr | jsrr => exact ⟨_, rfl, .calls _ rfl rfl rfl⟩
  case jmp => exact ⟨_, rfl, .jumps _ rfl rfl rfl⟩
  case trap => exact ⟨_, rfl, .serves _ rfl⟩
  case rti => exact ⟨_, rfl, .faults _ _ (.inl rfl)⟩
  case res => exact ⟨_, rfl, .faults _ _ (.inr rfl)⟩

theorem effect_of_exec {i : Instr} {s t : State} (h : exec i s = .next t) : Effect i s t := by
  obtain ⟨u, hu, he⟩ := exec_effect i s
  cases hu.symm.trans h
  exact he

/-! ### What each shared operation leaves unchanged -/

section
variable (s : State)

theorem State.setRegCC_reg_other {r q : Reg} (h : q ≠ r) (v : Word) : (s.setRegCC r v).reg q = s.reg q := by
  simp [State.setRegCC_reg, h]

theorem State.link_reg_other {q : Reg} (h : q ≠ 7) : s.link.reg q = s.reg q := s.setReg_reg_other h s.pc

@[simp] theorem State.serviceRoutine_reg (v : Byte) (r : Reg) : (s.serviceRoutine v).reg r = s.reg r := by
  obtain ⟨p, bs, h⟩ := s.serviceRoutine_cases v
  rw [h]; rfl
@[simp] theorem State.serviceRoutine_pc (v : Byte) : (s.serviceRoutine v).pc = s.pc := by
  obtain ⟨p, bs, h⟩ := s.serviceRoutine_cases v
  rw [h]
@[simp] theorem State.serviceRoutine_cond (v : Byte) : (s.serviceRoutine v).cond = s.cond := by
  obtain ⟨p, bs, h⟩ := s.serviceRoutine_cases v
  rw [h]
@[simp] theorem State.serviceRoutine_mem (v : Byte) : (s.serviceRoutine v).mem = s.mem := by
  obtain ⟨p, bs, h⟩ := s.serviceRoutine_cases v
  rw [h]
@[simp] theorem State.serviceRoutine_inq (v : Byte) : (s.serviceRoutine v).inq = s.inq := by
  obtain ⟨p, bs, h⟩ := s.serviceRoutine_cases v
  rw [h]
theorem State.serviceRoutine_outq (v : Byte) : ∃ bs, (s.serviceRoutine v).outq = s.outq ++ bs := by
  obtain ⟨p, bs, h⟩ := s.serviceRoutine_cases v
  exact ⟨bs, by rw [h]⟩

/-- The dispatcher halts the machine for vector x25 alone (45_trap.md R151, R157). -/
theorem State.serviceRoutine_halted {s : State} (h : s.phase ≠ .halted) (v : Byte) :
    (s.serviceRoutine v).phase = .halted ↔ v = 0x25#8 := by
  unfold State.serviceRoutine
  split_ifs <;>
    simp_all [State.trapGetc, State.trapOut, State.trapPuts, State.trapIn, State.trapPutsp, State.trapHalt, State.emit]

@[simp] theorem State.fetch_cond : s.fetch.2.cond = s.cond := by simp [State.fetch_snd]
@[simp] theorem State.fetch_pc : s.fetch.2.pc = s.pc + 1#16 := rfl
@[simp] theorem State.fetch_outq : s.fetch.2.outq = s.outq := by simp [State.fetch_snd]
@[simp] theorem State.fetch_phase : s.fetch.2.phase = s.phase := by simp [State.fetch_snd]

theorem State.fetch_mem_wf {s : State} (h : s.mem.wf = true) : s.fetch.2.mem.wf = true :=
  State.touch_mem_wf h s.pc

end

/-! ### What an effect writes and keeps -/

namespace Effect

variable {i : Instr} {s t : State}

theorem regsBut (h : Effect i s t) : RegsBut (destRegs i) s t := by
  intro r hr
  cases h with
  | setsReg dr v _ dest =>
    rw [dest, List.mem_singleton] at hr
    rw [State.setRegCC_reg_other _ hr, State.reads_reg]
  | stores | stays | jumps => simp
  | calls target _ _ dest =>
    rw [dest, List.mem_singleton] at hr
    rw [State.setPc_reg, State.link_reg_other s hr]
  | serves v => exact s.serviceRoutine_reg v r
  | faults => rfl

theorem pc (h : Effect i s t) (hi : writesPc i = false) : t.pc = s.pc := by
  cases h with
  | setsReg | stores => simp
  | stays => rfl
  | jumps _ jump | calls _ jump => simp [hi] at jump
  | serves v => exact s.serviceRoutine_pc v
  | faults => rfl

theorem cond (h : Effect i s t) (hi : flagDest i = none) : t.cond = s.cond := by
  cases h with
  | setsReg dr v flag => simp [hi] at flag
  | stores => simp
  | stays | jumps | calls | faults => rfl
  | serves v => exact s.serviceRoutine_cond v

/-- A destination register is written together with the flags. -/
theorem setRegCC (h : Effect i s t) {dr : Reg} (hi : flagDest i = some dr) :
    ∃ v, t = (s.reads (readAddrs i s)).setRegCC dr v := by
  cases h with
  | setsReg dr' v flag =>
    obtain rfl : dr' = dr := Option.some.inj (flag.symm.trans hi)
    exact ⟨v, rfl⟩
  | stores _ _ _ flag | stays _ flag | jumps _ _ flag | calls _ _ flag => simp [hi] at flag
  | serves v trap => subst trap; cases hi
  | faults opcode word undefined => rcases undefined with rfl | rfl <;> cases hi

/-- The characters taken are those of the reads. -/
theorem inq (h : Effect i s t) : ∃ k ≤ (readAddrs i s).length, t.inq = s.inq.drop k := by
  cases h with
  | setsReg | stores => simpa using State.reads_inq (s := s) (readAddrs i s)
  | stays | jumps | calls | faults => exact ⟨0, Nat.zero_le _, rfl⟩
  | serves v => exact ⟨0, Nat.zero_le _, s.serviceRoutine_inq v⟩

theorem outq (h : Effect i s t) : ∃ bs, t.outq = s.outq ++ bs := by
  cases h with
  | setsReg | stores => exact ⟨[], by simp⟩
  | stays | jumps | calls | faults => exact ⟨[], (List.append_nil _).symm⟩
  | serves v => exact s.serviceRoutine_outq v

theorem mem_wf (h : Effect i s t) (hs : s.mem.wf = true) : t.mem.wf = true := by
  cases h with
  | setsReg dr v => simpa using State.reads_mem_wf _ hs
  | stores a v => exact Memory.write_wf (State.reads_mem_wf _ hs) a v
  | stays | jumps | calls | faults => exact hs
  | serves v => rwa [State.serviceRoutine_mem]

/-- No instruction but TRAP x25 halts the machine. -/
theorem halted (h : Effect i s t) (hs : s.phase ≠ .halted) : t.phase = .halted ↔ i = .trap 0x25#8 := by
  cases h with
  | setsReg dr v flag =>
    have : i ≠ .trap 0x25#8 := by rintro rfl; cases flag
    simp [hs, this]
  | stores a v store =>
    have : i ≠ .trap 0x25#8 := by rintro rfl; cases store
    simp [hs, this]
  | stays jump | jumps _ jump | calls _ jump =>
    have : i ≠ .trap 0x25#8 := by rintro rfl; cases jump
    simp [hs, this, State.link_eq]
  | serves v trap => simp [trap, State.serviceRoutine_halted hs]
  | faults opcode word undefined => rcases undefined with rfl | rfl <;> simp [State.raiseUndefinedOpcode]

end Effect

/-! ### The condition code (R23 to R25) -/

theorem condOf_signClass (v : Word) : SignClass v (condOf v) := by
  unfold SignClass condOf
  split_ifs <;> simp_all

theorem condOf_ne_none (v : Word) : condOf v ≠ .none := by
  unfold condOf
  split_ifs <;> simp

theorem Effect.signClass {i : Instr} {s t : State} (h : Effect i s t) {dr : Reg} (hi : flagDest i = some dr) :
    SignClass (t.reg dr) t.cond := by
  obtain ⟨v, rfl⟩ := h.setRegCC hi
  simpa using condOf_signClass v

theorem Effect.cond_ne_none {i : Instr} {s t : State} (h : Effect i s t) (hs : s.cond ≠ .none) :
    t.cond ≠ .none := by
  cases hf : flagDest i with
  | none => rwa [h.cond hf]
  | some dr =>
    obtain ⟨v, rfl⟩ := h.setRegCC hf
    simpa using condOf_ne_none v

/-- Settles O27: a flag-affecting instruction's effect is `State.setRegCC`. -/
theorem setCcClassifiesTheValue : Obligations.SetCcClassifiesTheValue := by
  refine ⟨fun s v => ⟨condOf_signClass v, rfl⟩, fun i dr s hi => ?_⟩
  obtain ⟨t, ht, he⟩ := exec_effect i s
  exact ⟨t, ht, he.signClass hi⟩

/-! ### The later steps of the service routines (45_trap.md R159, R160) -/

/-- A STRING_OUT step reads one cell, and goes on in another phase with perhaps more output. -/
theorem step_stringOut_cases {s t : State} {a : Word} {pk : Bool} (hp : s.phase = .stringOut a pk)
    (h : step s = .next t) : ∃ bs p, p ≠ .halted ∧ t = ((s.touch a).emitString bs).enter p := by
  rw [step_stringOut hp] at h
  rcases State.stringOutStep_cases h with ⟨-, ht⟩ | ⟨-, ht⟩
  · refine ⟨[], .running, by simp, ?_⟩
    simpa [State.emitString, State.enter] using ht
  · exact ⟨_, _, by simp, ht⟩

/-- Everything a step that answers a next state does: an instruction's effect after the fetch, or a later step of a
service routine. -/
theorem step_effect {s t : State} (h : step s = .next t) :
    (s.phase = .running ∧ Effect (decode s.fetch.1) s.fetch.2 t) ∨
    (∃ k c rest, s.phase = .waitInput k ∧ s.inq = c :: rest ∧
      t = { s with
        inq := rest
        regs := s.regs.set 0 (charWord c)
        outq := s.outq ++ echoBytes k c
        phase := .running }) ∨
    (∃ a pk bs p, s.phase = .stringOut a pk ∧ p ≠ .halted ∧ t = ((s.touch a).emitString bs).enter p) := by
  rcases step_cases h with ⟨hp, h'⟩ | ⟨k, hp, h'⟩ | ⟨a, pk, hp, -⟩
  · exact .inl ⟨hp, effect_of_exec h'⟩
  · obtain ⟨c, rest, hc⟩ := State.waitInputStep_cases h'
    exact .inr (.inl ⟨k, c, rest, hp, hc⟩)
  · obtain ⟨bs, p, ht⟩ := step_stringOut_cases hp h
    exact .inr (.inr ⟨a, pk, bs, p, hp, ht⟩)

/-- No later step of a service routine writes pc or the condition code (45_trap.md R161). -/
theorem step_later_keeps {s t : State} (hp : s.phase ≠ .running) (h : step s = .next t) :
    t.pc = s.pc ∧ t.cond = s.cond := by
  rcases step_effect h with ⟨hr, -⟩ | ⟨k, c, rest, -, -, rfl⟩ | ⟨a, pk, bs, p, -, -, rfl⟩
  · exact absurd hr hp
  · exact ⟨rfl, rfl⟩
  · simp

/-! ### What a step keeps -/

theorem step_mem_wf {s t : State} (hs : s.mem.wf = true) (h : step s = .next t) : t.mem.wf = true := by
  rcases step_effect h with ⟨-, he⟩ | ⟨k, c, rest, -, -, rfl⟩ | ⟨a, pk, bs, p, -, -, rfl⟩
  · exact he.mem_wf (State.fetch_mem_wf hs)
  · exact hs
  · exact State.touch_mem_wf hs a

/-- Settles O54: memory is written by `Memory.write` alone, the device addresses are parameters. -/
theorem stepKeepsTheInvariant : Obligations.StepKeepsTheInvariant := by
  rintro s t ⟨hm, hd⟩ h
  refine ⟨step_mem_wf hm h, ?_⟩
  rwa [parametersNeverChange s t h]

/-- Settles O43: an effect keeps the condition code or sets it to a sign class. -/
theorem condStaysSet : Obligations.CondStaysSet := by
  intro s t hs h
  by_cases hp : s.phase = .running
  · rw [step_running hp] at h
    exact (effect_of_exec h).cond_ne_none (by rwa [State.fetch_cond])
  · rwa [(step_later_keeps hp h).2]

/-- Settles O44, by the effect of the instruction and the form of each later step. -/
theorem onlyTheNamedRegistersAreWritten : Obligations.OnlyTheNamedRegistersAreWritten := by
  refine ⟨fun i s => ?_, fun s t k hp h r hr => ?_, fun s t a pk hp h r _ => ?_⟩
  · obtain ⟨t, ht, he⟩ := exec_effect i s
    exact ⟨t, ht, he.regsBut⟩
  · obtain ⟨c, rest, -, rfl⟩ := State.waitInputStep_cases ((step_waitInput hp).symm.trans h)
    exact State.setReg_reg_other s (List.mem_singleton.not.mp hr) (charWord c)
  · obtain ⟨bs, p, -, rfl⟩ := step_stringOut_cases hp h
    simp

/-- Settles O45, by the effect of the instruction; no later step writes pc. -/
theorem onlyControlTransfersWritePc : Obligations.OnlyControlTransfersWritePc := by
  refine ⟨fun s hp => ⟨step_running hp, s.fetch_pc⟩, fun i s hi => ?_, fun m o s hb => ?_,
    fun s t hp h => (step_later_keeps hp h).1⟩
  · obtain ⟨t, ht, he⟩ := exec_effect i s
    exact ⟨t, ht, he.pc hi⟩
  · simp [exec_br, hb]

/-- Settles O47: of the effects of an instruction only TRAP x25 halts, and no later step does. -/
theorem haltedOnlyByTrapHalt : Obligations.HaltedOnlyByTrapHalt := by
  intro s t h
  rcases step_effect h with ⟨hp, he⟩ | ⟨k, c, rest, hp, -, rfl⟩ | ⟨a, pk, bs, p, hp, hne, rfl⟩
  · simp [he.halted (by simp [hp]), hp]
  · simp [hp]
  · simp [hp, hne]

/-- Settles O50, by the effect of the step. -/
theorem outputIsAppendOnly : Obligations.OutputIsAppendOnly := by
  intro s t h
  rcases step_effect h with ⟨-, he⟩ | ⟨k, c, rest, -, -, rfl⟩ | ⟨a, pk, bs, p, -, -, rfl⟩
  · simpa using he.outq
  · exact ⟨echoBytes k c, rfl⟩
  · exact ⟨bs, by simp⟩

/-! ### How many characters a step takes (R31, 20_memory.md R52) -/

theorem readAddrs_length_le (i : Instr) (s : State) : (readAddrs i s).length ≤ 2 := by
  cases i <;> simp [readAddrs]

/-- A fetch from KBSR yields a BR that is not taken or an RTI, whose meanings read nothing (40_cycle.md R90). -/
theorem readAddrs_of_fetch_kbsr {s : State} (h : s.pc = s.params.kbsrAddr) (u : State) :
    readAddrs (decode s.fetch.1) u = [] := by
  have hw : s.fetch.1 = s.poll.mem.read s.params.kbsrAddr := by
    rw [State.fetch, State.memRead_fst, h, State.touch_kbsr]
  cases hq : s.inq with
  | nil =>
    rw [hw, State.poll_nil hq, Memory.read_write_same, decode_op0 rfl]
    rfl
  | cons c rest =>
    rw [hw, State.poll_cons hq, Memory.read_write_same, decode_op8 rfl]
    rfl

/-- The fetch and the reads of the instruction it fetches poll at most twice. -/
theorem step_reads_at_most_two (s : State) :
    ∃ k, s.fetch.2.inq = s.inq.drop k ∧ k + (readAddrs (decode s.fetch.1) s.fetch.2).length ≤ 2 := by
  by_cases hk : s.pc = s.params.kbsrAddr
  · refine ⟨1, ?_, by simp [readAddrs_of_fetch_kbsr hk]⟩
    rw [State.fetch_snd, hk, State.touch_kbsr, State.setPc_inq, State.poll_inq, List.drop_one]
  · refine ⟨0, by simp [State.fetch_of_ne hk], ?_⟩
    simpa using readAddrs_length_le (decode s.fetch.1) s.fetch.2

/-- Settles O49: the characters taken by the fetch, then those of the instruction's reads. -/
theorem inputIsConsumedInOrder : Obligations.InputIsConsumedInOrder := by
  intro s t h
  rcases step_effect h with ⟨-, he⟩ | ⟨k, c, rest, -, hq, rfl⟩ | ⟨a, pk, bs, p, -, -, rfl⟩
  · obtain ⟨j, hj, hle⟩ := step_reads_at_most_two s
    obtain ⟨k, hk, ht⟩ := he.inq
    exact ⟨j + k, by omega, by rw [ht, hj, List.drop_drop]⟩
  · exact ⟨1, by decide, by simp [hq]⟩
  · obtain ⟨k, hk, ht⟩ := State.reads_inq (s := s) [a]
    exact ⟨k, hk.trans one_le_two, ht⟩

/-! ### The condition code is read by BR alone (R25) -/

theorem State.touch_withCond (s : State) (c : Cond) (a : Word) :
    ({ s with cond := c } : State).touch a = { s.touch a with cond := c } := by
  unfold State.touch State.poll
  split
  · dsimp only
    split <;> rfl
  · rfl

theorem State.memRead_withCond (s : State) (c : Cond) (a : Word) :
    ({ s with cond := c } : State).memRead a = ((s.memRead a).1, { (s.memRead a).2 with cond := c }) := by
  rw [State.memRead, State.touch_withCond]
  rfl

theorem State.serviceRoutine_withCond (s : State) (c : Cond) (v : Byte) :
    ({ s with cond := c } : State).serviceRoutine v = { s.serviceRoutine v with cond := c } := by
  unfold State.serviceRoutine
  split_ifs <;> rfl

/-- A load sets the condition code, whatever it held. -/
theorem State.loadFrom_withCond (s : State) (c : Cond) (dr : Reg) (a : Word) :
    ({ s with cond := c } : State).loadFrom dr a = s.loadFrom dr a := by
  rw [State.loadFrom_eq, State.touch_withCond]
  rfl

/-- From another condition code an instruction that is not BR reaches the same state but for the condition code. -/
theorem exec_withCond {i : Instr} {s t : State} (c : Cond) (hi : ∀ m o, i ≠ .br m o) (h : exec i s = .next t) :
    ∃ c', exec i { s with cond := c } = .next { t with cond := c' } := by
  cases i <;> cases h
  case br m o => exact absurd rfl (hi m o)
  case addReg | addImm | andReg | andImm | not | lea => exact ⟨_, rfl⟩
  case st | str | jsr | jsrr | jmp | rti | res => exact ⟨c, rfl⟩
  case ld | ldr => exact ⟨_, congrArg Host.Outcome.next (s.loadFrom_withCond c _ _)⟩
  case ldi dr o =>
    change ∃ c', Host.Outcome.next ((({ s with cond := c } : State).memRead (s.pcRelative o)).2.loadFrom dr
      (({ s with cond := c } : State).memRead (s.pcRelative o)).1) = _
    rw [State.memRead_withCond, State.loadFrom_withCond]
    exact ⟨_, rfl⟩
  case sti sr o =>
    change ∃ c', Host.Outcome.next ((({ s with cond := c } : State).memRead (s.pcRelative o)).2.memWrite
      (({ s with cond := c } : State).memRead (s.pcRelative o)).1 (s.reg sr)) = _
    rw [State.memRead_withCond]
    exact ⟨c, rfl⟩
  case trap v => exact ⟨c, congrArg Host.Outcome.next (s.serviceRoutine_withCond c v)⟩

/-- Settles O42: an instruction's effect sets the flags with its destination register or keeps them, no later step
writes them, and no meaning but BR's reads them. -/
theorem onlySevenInstructionsWriteCond : Obligations.OnlySevenInstructionsWriteCond := by
  refine ⟨fun i s => ?_, fun s t hp h => (step_later_keeps hp h).2, fun i s t c hi h => ?_⟩
  · obtain ⟨t, ht, he⟩ := exec_effect i s
    exact ⟨t, ht, fun dr hf => he.signClass hf, he.cond⟩
  · obtain ⟨c', hu⟩ := exec_withCond c hi h
    exact ⟨_, hu, rfl⟩

/-! ### An arriving character and a step (R31) -/

theorem State.poll_arrival {s : State} (c : Byte) (hq : s.inq ≠ []) :
    ({ s with inq := s.inq ++ [c] } : State).poll = { s.poll with inq := s.poll.inq ++ [c] } := by
  obtain ⟨b, rest, hb⟩ := List.exists_cons_of_ne_nil hq
  rw [State.poll_cons hb, State.poll_cons (c := b) (rest := rest ++ [c]) (by simp [hb])]

theorem State.touch_arrival {s : State} (c : Byte) (hq : s.inq ≠ []) (a : Word) :
    ({ s with inq := s.inq ++ [c] } : State).touch a = { s.touch a with inq := (s.touch a).inq ++ [c] } := by
  unfold State.touch
  split
  · exact State.poll_arrival c hq
  · rfl

theorem State.memRead_arrival {s : State} (c : Byte) (hq : s.inq ≠ []) (a : Word) :
    ({ s with inq := s.inq ++ [c] } : State).memRead a =
      ((s.memRead a).1, { (s.memRead a).2 with inq := (s.memRead a).2.inq ++ [c] }) := by
  rw [State.memRead, State.touch_arrival c hq]
  rfl

theorem State.serviceRoutine_arrival (s : State) (c : Byte) (v : Byte) :
    ({ s with inq := s.inq ++ [c] } : State).serviceRoutine v =
      { s.serviceRoutine v with inq := (s.serviceRoutine v).inq ++ [c] } := by
  unfold State.serviceRoutine
  split_ifs <;> rfl

theorem State.loadFrom_arrival {s : State} (c : Byte) (hq : s.inq ≠ []) (dr : Reg) (a : Word) :
    ({ s with inq := s.inq ++ [c] } : State).loadFrom dr a =
      { s.loadFrom dr a with inq := (s.loadFrom dr a).inq ++ [c] } := by
  rw [State.loadFrom_eq, State.touch_arrival c hq]
  rfl

/-- With a character pending for each of its reads, an instruction does the same before and after an arrival. -/
theorem exec_arrival {i : Instr} {s t : State} (c : Byte) (hq : (readAddrs i s).length ≤ s.inq.length)
    (h : exec i s = .next t) : exec i { s with inq := s.inq ++ [c] } = .next { t with inq := t.inq ++ [c] } := by
  cases i <;> cases h
  case br m o =>
    change Host.Outcome.next (if s.branchTaken m then _ else _) = _
    split <;> rfl
  case addReg | addImm | andReg | andImm | not | lea | st | str | jsr | jsrr | jmp | rti | res => rfl
  case ld | ldr => exact congrArg Host.Outcome.next (State.loadFrom_arrival c (List.ne_nil_of_length_pos hq) _ _)
  case ldi dr o =>
    have hq' : (s.touch (s.pcRelative o)).inq ≠ [] := by
      apply List.ne_nil_of_length_pos
      have : 2 ≤ s.inq.length := hq
      rcases s.touch_inq (s.pcRelative o) with e | e <;> simp [e] <;> omega
    change Host.Outcome.next ((({ s with inq := s.inq ++ [c] } : State).memRead (s.pcRelative o)).2.loadFrom dr
      (({ s with inq := s.inq ++ [c] } : State).memRead (s.pcRelative o)).1) = _
    rw [State.memRead_arrival c (List.ne_nil_of_length_pos (Nat.zero_lt_of_lt hq))]
    exact congrArg Host.Outcome.next (State.loadFrom_arrival c hq' dr _)
  case sti sr o =>
    change Host.Outcome.next ((({ s with inq := s.inq ++ [c] } : State).memRead (s.pcRelative o)).2.memWrite
      (({ s with inq := s.inq ++ [c] } : State).memRead (s.pcRelative o)).1 (s.reg sr)) = _
    rw [State.memRead_arrival c (List.ne_nil_of_length_pos hq)]
    rfl
  case trap v => exact congrArg Host.Outcome.next (s.serviceRoutine_arrival c v)

theorem State.fetch_arrival {s : State} (c : Byte) (hq : s.inq ≠ []) :
    ({ s with inq := s.inq ++ [c] } : State).fetch =
      (s.fetch.1, { s.fetch.2 with inq := s.fetch.2.inq ++ [c] }) := by
  change ((State.memRead _ s.pc).1, (State.memRead _ s.pc).2.setPc (s.pc + 1#16)) = _
  rw [State.memRead_arrival c hq]
  rfl

theorem State.waitInputStep_arrival {s t : State} {k : InputKind} (c : Byte) (h : s.waitInputStep k = .next t) :
    ({ s with inq := s.inq ++ [c] } : State).waitInputStep k = .next { t with inq := t.inq ++ [c] } := by
  obtain ⟨b, rest, hb, rfl⟩ := State.waitInputStep_cases h
  rw [State.waitInputStep_cons k (c := b) (rest := rest ++ [c]) (by simp [hb])]
  rfl

theorem State.stringOutStep_arrival {s t : State} {a : Word} {pk : Bool} (c : Byte) (hq : s.inq ≠ [])
    (h : s.stringOutStep a pk = .next t) :
    ({ s with inq := s.inq ++ [c] } : State).stringOutStep a pk = .next { t with inq := t.inq ++ [c] } := by
  rw [State.stringOutStep, State.memRead_arrival c hq]
  rcases State.stringOutStep_cases h with ⟨hv, rfl⟩ | ⟨hv, rfl⟩
  · rw [if_pos hv]
    rfl
  · rw [if_neg hv]
    rfl

/-- Settles O59: the fetch, the reads of the instruction and the later steps find the characters they take already
pending. -/
theorem arrivalCommutesWithAStep : Obligations.ArrivalCommutesWithAStep := by
  intro s t c hlen h
  have hq : s.inq ≠ [] := List.ne_nil_of_length_pos (by omega)
  rcases step_cases h with ⟨hp, h'⟩ | ⟨k, hp, h'⟩ | ⟨a, pk, hp, h'⟩
  · rw [step_running (s := { s with inq := s.inq ++ [c] }) hp, State.fetch_arrival c hq]
    have hpending : (readAddrs (decode s.fetch.1) s.fetch.2).length ≤ s.fetch.2.inq.length := by
      obtain ⟨k, hk, hle⟩ := step_reads_at_most_two s
      rw [hk, List.length_drop]
      omega
    exact exec_arrival c hpending h'
  · rw [step_waitInput (s := { s with inq := s.inq ++ [c] }) hp]
    exact State.waitInputStep_arrival c h'
  · rw [step_stringOut (s := { s with inq := s.inq ++ [c] }) hp]
    exact State.stringOutStep_arrival c hq h'

/-! ### Reset, boot and the reachable states (R28, R33, 70_reset_and_hazards.md R210, R211) -/

theorem State.resetWith_inv {d : Draws} (hd : d.params.distinct) : (State.resetWith d).inv :=
  ⟨State.resetWith_mem_wf d, hd⟩

/-- Settles O55: reset memory is empty, and the addresses State.reset names differ. -/
theorem resetHasTheInvariant : Obligations.ResetHasTheInvariant :=
  ⟨fun _ => State.resetWith_inv, State.resetWith_inv (by decide)⟩

theorem Memory.place_wf {m : Memory} (h : m.wf = true) (origin : Word) (image : List Word) :
    (m.place origin image).wf = true := by
  induction image generalizing m origin with
  | nil => exact h
  | cons w image ih => exact ih (Memory.write_wf h origin w) (origin + 1#16)

/-- Boot answers for the images that fit alone, and then with the image placed in reset memory. -/
theorem State.boot_eq_some {d : Draws} {origin : Word} {image : List Word} {s : State} :
    State.boot d origin image = some s ↔ origin.toNat + image.length ≤ 65536 ∧
      ({ State.resetWith d with mem := Memory.place [] origin image } : State) = s := by
  unfold State.boot State.load
  split <;> simp_all [State.start, State.setPc, State.enter, State.resetWith]

theorem State.boot_inv {d : Draws} {origin : Word} {image : List Word} {s : State} (hd : d.params.distinct)
    (h : State.boot d origin image = some s) : s.inv := by
  obtain ⟨-, rfl⟩ := State.boot_eq_some.mp h
  exact ⟨Memory.place_wf rfl origin image, hd⟩

/-- The engine's move is a step; the host's moves write neither memory nor the parameters. -/
theorem Move.apply_inv {m : Move} {s t : State} (hs : s.inv) (h : m.apply s = some t) : t.inv := by
  cases m with
  | engine => exact stepKeepsTheInvariant s t hs (apply_engine.mp h)
  | input c =>
    obtain ⟨-, rfl⟩ : s.phase.terminal = false ∧ { s with inq := s.inq ++ [c] } = t := by
      simpa [Move.apply, State.inputArrival] using h
    exact hs
  | abort =>
    obtain ⟨-, rfl⟩ : s.phase.terminal = false ∧ s.enter .aborted = t := by
      simpa [Move.apply, State.abort] using h
    exact hs

theorem runMoves_inv {ms : List Move} {s t : State} (hs : s.inv) (h : runMoves ms s = some t) : t.inv := by
  induction ms generalizing s with
  | nil => exact Option.some.inj h ▸ hs
  | cons m ms ih =>
    unfold runMoves at h
    split at h
    · exact ih (Move.apply_inv hs ‹_›) h
    · cases h

/-- Settles O56: boot gives the invariant and every move keeps it. -/
theorem reachableStatesHaveTheInvariant : Obligations.ReachableStatesHaveTheInvariant := by
  rintro t ⟨d, origin, image, s, ms, hd, hb, hr⟩
  exact runMoves_inv (State.boot_inv hd hb) hr

/-! ### The image in memory (R33) -/

/-- A cell outside the image reads as before. -/
theorem Memory.read_place_outside (m : Memory) {origin a : Word} {image : List Word}
    (hfit : origin.toNat + image.length ≤ 65536)
    (ha : a.toNat < origin.toNat ∨ origin.toNat + image.length ≤ a.toNat) :
    (m.place origin image).read a = m.read a := by
  induction image generalizing m origin with
  | nil => rfl
  | cons w image ih =>
    rw [List.length_cons] at hfit ha
    have hne : a ≠ origin := by rintro rfl; omega
    have hn : (origin + 1#16).toNat = (origin.toNat + 1) % 65536 := BitVec.toNat_add ..
    rw [Memory.place, ih _ (by omega) (by omega), Memory.read_write_other _ hne]

/-- The word `k` of the image is read `k` cells after its origin. -/
theorem Memory.read_place (m : Memory) {origin : Word} {image : List Word}
    (hfit : origin.toNat + image.length ≤ 65536) (k : Nat) (hk : k < image.length) :
    (m.place origin image).read (origin + BitVec.ofNat 16 k) = image[k] := by
  induction image generalizing m origin k with
  | nil => cases hk
  | cons w image ih =>
    rw [List.length_cons] at hfit hk
    have hn : (origin + 1#16).toNat = (origin.toNat + 1) % 65536 := BitVec.toNat_add ..
    rw [Memory.place]
    cases k with
    | zero =>
      rw [BitVec.add_zero, Memory.read_place_outside _ (by omega) (by omega), Memory.read_write_same]
      rfl
    | succ k =>
      have ha : origin + BitVec.ofNat 16 (k + 1) = origin + 1#16 + BitVec.ofNat 16 k := by
        rw [BitVec.add_assoc, ← BitVec.ofNat_add, Nat.add_comm]
      rw [ha, ih _ (by omega) k (by omega), List.getElem_cons_succ]

/-- Settles O57, by the state boot answers and the cells of an image placed in empty memory. -/
theorem bootLeavesTheResetState : Obligations.BootLeavesTheResetState := by
  intro d origin image hfit
  refine ⟨_, State.boot_eq_some.mpr ⟨hfit, rfl⟩, fun r => rfl, rfl, rfl, rfl, rfl, rfl, rfl, rfl,
    Memory.read_place [] hfit, fun a ha => ?_⟩
  rw [Memory.read_place_outside [] hfit ha, Memory.read_nil]

end Sys2Proof.Machine

/-! The statements of 20_memory.md: what a read and a store do, which cells an instruction may change, that every
access completes, and that a string scan without further input ends. -/

namespace Sys2Proof.Machine

/-! ### The primitives (R42, R43, R45) -/

section
variable {s : State} {a : Word}

/-- A status read with no character pending yields 0. -/
theorem State.memRead_kbsr_nil (ha : a = s.params.kbsrAddr) (hq : s.inq = []) : (s.memRead a).1 = 0#16 := by
  rw [State.memRead_fst, ha, State.touch_kbsr, State.poll_nil hq, Memory.read_write_same]

/-- A status read with a character pending yields bit 15. -/
theorem State.memRead_kbsr_cons (ha : a = s.params.kbsrAddr) {c : Byte} {rest : List Byte} (hq : s.inq = c :: rest) :
    (s.memRead a).1 = 0x8000#16 := by
  rw [State.memRead_fst, ha, State.touch_kbsr, State.poll_cons hq, Memory.read_write_same, kbsrReady]

/-- A poll leaves the character it takes in the data cell. -/
theorem State.poll_read_kbdr (hd : s.params.distinct) {c : Byte} {rest : List Byte} (hq : s.inq = c :: rest) :
    s.poll.mem.read s.params.kbdrAddr = c.zeroExtend 16 := by
  rw [State.poll_cons hq, Memory.read_write_other _ hd.symm, Memory.read_write_same, charWord]

end

/-- With no character pending a poll writes the status cell alone. -/
theorem State.poll_cellsBut_nil {s : State} (hq : s.inq = []) : CellsBut [s.params.kbsrAddr] s s.poll := by
  intro b hb
  rw [State.poll_nil hq, Memory.read_write_other _ (List.mem_singleton.not.mp hb)]

/-- A poll writes the two device cells alone. -/
theorem State.poll_cellsBut (s : State) : CellsBut [s.params.kbsrAddr, s.params.kbdrAddr] s s.poll := by
  intro b hb
  rw [List.mem_cons, List.mem_singleton, not_or] at hb
  exact State.poll_read_other hb.1 hb.2

/-- MemRead has the outcome R42 states. -/
theorem State.memRead_outcome (s : State) (a : Word) : ReadOutcome s a (s.memRead a).1 (s.touch a) := by
  refine ⟨fun ha => ?_, fun ha hq => ?_, fun c rest ha hq => ?_⟩
  · simp [State.memRead_of_ne ha, State.touch_of_ne ha, CellsBut]
  · refine ⟨State.memRead_kbsr_nil ha hq, ?_, ?_⟩ <;> rw [ha, State.touch_kbsr]
    · rw [State.poll_inq, hq, List.tail_nil]
    · exact ⟨by rw [State.poll_nil hq, Memory.read_write_same], State.poll_cellsBut_nil hq⟩
  · refine ⟨State.memRead_kbsr_cons ha hq, ?_, ?_⟩ <;> rw [ha, State.touch_kbsr]
    · rw [State.poll_inq, hq, List.tail_cons]
    · exact ⟨by rw [State.poll_cons hq, Memory.read_write_same, kbsrReady], fun hd => State.poll_read_kbdr hd hq,
        s.poll_cellsBut⟩

/-- Settles O28: the outcome of the read, and the fields `State.touch` keeps. -/
theorem statusReadPolls : Obligations.StatusReadPolls := by
  intro s a
  rw [State.memRead_snd]
  exact ⟨s.memRead_outcome a, fun r _ => s.touch_reg a r, s.touch_pc a, s.touch_cond a, s.touch_outq a,
    s.touch_phase a, s.touch_params a⟩

/-- Settles O29, by the reads after a write. -/
theorem memWriteIsAPlainStore : Obligations.MemWriteIsAPlainStore := fun s a v =>
  ⟨s.mem.read_write_same a v, fun _ hb => s.mem.read_write_other (List.mem_singleton.not.mp hb) v, rfl⟩

/-- Settles O30: the first status read is a poll, which takes the only character from INQ into the data cell. -/
theorem secondStatusReadYieldsZero : Obligations.SecondStatusReadYieldsZero := by
  intro s hd k
  have hk : k = s.poll.params.kbsrAddr := by rw [State.poll_params]
  rw [State.memRead_snd, State.touch_kbsr]
  refine ⟨fun hq => ⟨State.memRead_kbsr_nil rfl hq, ?_⟩, fun c hq => ⟨State.memRead_kbsr_cons rfl hq, ?_, ?_⟩⟩
  · exact State.memRead_kbsr_nil hk (by rw [State.poll_inq, hq, List.tail_nil])
  · have hne : s.params.kbdrAddr ≠ s.poll.params.kbsrAddr := hk ▸ hd.symm
    rw [State.memRead_of_ne hne]
    exact State.poll_read_kbdr hd hq
  · exact State.memRead_kbsr_nil hk (by rw [State.poll_inq, hq, List.tail_cons])

/-- Settles O52: away from KBSR the fetch reads the cell just written. -/
theorem fetchSeesTheStore : Obligations.FetchSeesTheStore := by
  intro s w hp hk
  have hf : (s.memWrite s.pc w).fetch = (w, (s.memWrite s.pc w).setPc (s.pc + 1#16)) := by
    rw [State.fetch_of_ne (s := s.memWrite s.pc w) hk, State.memWrite_pc, State.memWrite_mem, Memory.read_write_same]
  rw [step_running (s := s.memWrite s.pc w) hp, hf]

/-! ### Every instruction completes (R41, 60_exceptions.md R183) -/

/-- No service routine raises the exception: OUT and an unmapped vector keep the phase, the others enter one that is
not FAULTED. -/
theorem State.endedByFault_of_serviceRoutine {s : State} {v : Byte} (h : (s.serviceRoutine v).endedByFault) :
    s.endedByFault := by
  obtain ⟨opcode, word, addr, hp⟩ := h
  refine ⟨opcode, word, addr, ?_⟩
  unfold State.serviceRoutine at hp
  split_ifs at hp
  exacts [(nomatch hp), hp, (nomatch hp), (nomatch hp), (nomatch hp), (nomatch hp), hp]

/-- RTI and RES alone raise the exception. -/
theorem Effect.endedByFault {i : Instr} {s t : State} (h : Effect i s t) (hi : ∀ w, i ≠ .rti w ∧ i ≠ .res w)
    (ht : t.endedByFault) : s.endedByFault := by
  cases h with
  | setsReg | stores => simpa [State.endedByFault] using ht
  | stays | jumps | calls => exact ht
  | serves v => exact State.endedByFault_of_serviceRoutine ht
  | faults opcode word undefined =>
    obtain ⟨hrti, hres⟩ := hi word
    exact absurd undefined (not_or.mpr ⟨hrti, hres⟩)

/-- Settles O41: every instruction has an effect, and a running step is an instruction's meaning after the fetch. -/
theorem everyInstructionCompletes : Obligations.EveryInstructionCompletes := by
  refine ⟨fun i s => ?_, fun s hp => ?_⟩
  · obtain ⟨t, ht, he⟩ := exec_effect i s
    exact ⟨t, ht, he.endedByFault⟩
  · obtain ⟨t, ht, -⟩ := exec_effect (decode s.fetch.1) s.fetch.2
    exact ⟨t, (step_running hp).trans ht⟩

/-! ### The cells an instruction changes (R40, R42, R43) -/

/-- Reads that leave KBSR out change nothing. -/
theorem State.reads_of_kbsr_notMem {s : State} {as : List Word} (h : s.params.kbsrAddr ∉ as) : s.reads as = s := by
  induction as with
  | nil => rfl
  | cons a as ih =>
    rw [List.mem_cons, not_or] at h
    obtain ⟨ha, has⟩ := h
    rw [State.reads_cons, State.touch_of_ne (Ne.symm ha), ih has]

/-- No read changes a cell that is not a device cell. -/
theorem State.reads_read_other {s : State} {b : Word} (as : List Word) (hs : b ≠ s.params.kbsrAddr)
    (hd : b ≠ s.params.kbdrAddr) : (s.reads as).mem.read b = s.mem.read b := by
  induction as generalizing s with
  | nil => rfl
  | cons a as ih =>
    rw [State.reads_cons, ih (by rwa [State.touch_params]) (by rwa [State.touch_params]),
      State.touch_read_other a hs hd]

/-- An effect changes no cell but the one stored to and those its reads change. -/
theorem Effect.read_mem {i : Instr} {s t : State} (h : Effect i s t) {a : Word} (ha : storeAddr i s ≠ some a)
    (hr : (s.reads (readAddrs i s)).mem.read a = s.mem.read a) : t.mem.read a = s.mem.read a := by
  cases h with
  | setsReg => rwa [State.setRegCC_mem]
  | stores b v store =>
    have hab : a ≠ b := by
      rintro rfl
      exact ha store
    rwa [State.memWrite_mem, Memory.read_write_other _ hab]
  | stays | jumps | calls | faults => rfl
  | serves v => rw [State.serviceRoutine_mem]

/-- Settles O46: the reads change nothing unless KBSR is among them, and then the device cells alone. -/
theorem memoryChangesOnlyWhereStoredOrPolled : Obligations.MemoryChangesOnlyWhereStoredOrPolled := by
  intro i s
  obtain ⟨t, ht, he⟩ := exec_effect i s
  refine ⟨t, ht, fun a ha hr => he.read_mem ha ?_⟩
  rcases hr with hk | ⟨hs, hd⟩
  · rw [State.reads_of_kbsr_notMem hk]
  · exact State.reads_read_other _ hs hd

/-! ### A string scan without further input (45_trap.md R159; log 22) -/

/-- How many steps a scan at address `a` can still take beyond the present one: the cells up to KBSR, and a round of all
cells for each pending character. -/
def State.scanBudget (s : State) (a : Word) : Nat := 65536 * s.inq.length + (s.params.kbsrAddr - a).toNat

theorem State.scanBudget_lt (s : State) (a : Word) : s.scanBudget a < 65536 * (s.inq.length + 1) := by
  have : (s.params.kbsrAddr - a).toNat < 65536 := BitVec.isLt _
  unfold State.scanBudget
  omega

/-- The next address is nearer to `k`, going up modulo 2^16, unless `a` is `k` (20_memory.md R50). -/
theorem toNat_sub_succ_lt {k a : Word} (h : a ≠ k) : (k - (a + 1#16)).toNat < (k - a).toNat := by
  bv_omega

/-- A cell that does not end the scan brings it nearer to KBSR, or is KBSR and takes a character. -/
theorem State.scanBudget_touch_lt {s : State} {a : Word} (hv : (s.memRead a).1 ≠ 0#16) :
    (s.touch a).scanBudget (a + 1#16) < s.scanBudget a := by
  rcases s.touch_cases a with ⟨ha, h⟩ | ⟨ha, h⟩ <;> rw [h]
  · exact Nat.add_lt_add_left (toNat_sub_succ_lt ha) _
  · cases hq : s.inq with
    | nil => exact absurd (State.memRead_kbsr_nil ha hq) hv
    | cons c rest =>
      have hlt := s.poll.scanBudget_lt (a + 1#16)
      rw [State.poll_inq, hq, List.tail_cons] at hlt
      exact hlt.trans_le (by simp [State.scanBudget, hq])

/-- A step of a scan ends it or leaves a smaller budget. -/
theorem step_stringOut_scanBudget {s : State} {a : Word} {pk : Bool} (hp : s.phase = .stringOut a pk) :
    ∃ t, step s = .next t ∧
      (t.phase = .running ∨ t.phase = .stringOut (a + 1#16) pk ∧ t.scanBudget (a + 1#16) < s.scanBudget a) := by
  rw [step_stringOut hp]
  by_cases hv : (s.memRead a).1 = 0#16
  · exact ⟨_, State.stringOutStep_zero pk hv, .inl rfl⟩
  · exact ⟨_, State.stringOutStep_nonzero pk hv, .inr ⟨rfl, State.scanBudget_touch_lt hv⟩⟩

/-- A scan ends within its budget and one step more. -/
theorem stringOut_ends {s : State} {a : Word} {pk : Bool} (hp : s.phase = .stringOut a pk) {b : Nat}
    (hb : s.scanBudget a < b) : ∃ n ≤ b, ∃ t, runFor n s = .next t ∧ t.phase = .running := by
  induction b generalizing s a with
  | zero => exact absurd hb (Nat.not_lt_zero _)
  | succ b ih =>
    obtain ⟨u, hu, hrun | ⟨hpu, hlt⟩⟩ := step_stringOut_scanBudget hp
    · exact ⟨1, Nat.succ_pos b, u, runFor_next hu 0, hrun⟩
    · obtain ⟨n, hn, t, ht, hrun⟩ := ih hpu (by omega)
      exact ⟨n + 1, Nat.succ_le_succ hn, t, (runFor_next hu n).trans ht, hrun⟩

/-- Settles O37: each step of a scan leaves a smaller `State.scanBudget`. -/
theorem stringScanEndsWithoutFurtherInput : Obligations.StringScanEndsWithoutFurtherInput := by
  intro s a pk hp
  obtain ⟨n, hn, t, ht, hrun⟩ := stringOut_ends hp (s.scanBudget_lt a)
  exact ⟨n, t, hn, ht, hrun⟩

end Sys2Proof.Machine

/-! The statements of 30_encoding.md: the words of an instruction, decoding and encoding as inverses, the don't-care
bits, and the words that fault. -/

namespace Sys2Proof.Machine

open Laws.EncodedOpcode (opcode)

/-! ### Fields at their places (R62, R78) -/

section
variable {n lo lo' n' : Nat} (f : BitVec n) (w : Word)

/-- A field is read back from its place. -/
@[simp] theorem extractLsb'_place_same (h : lo + n ≤ 16) : (place f lo).extractLsb' lo n = f := by
  ext k hk
  rw [BitVec.getElem_extractLsb' hk, getLsbD_place]
  simp [show lo + k < 16 by omega, hk]

/-- Bits below a field's place are zero. -/
@[simp] theorem extractLsb'_place_below (h : lo' + n' ≤ lo) : (place f lo).extractLsb' lo' n' = 0#n' := by
  ext k hk
  simp [getLsbD_place, show ¬ lo ≤ lo' + k by omega]

/-- Bits above a field's place are zero. -/
@[simp] theorem extractLsb'_place_above (h : lo + n ≤ lo') : (place f lo).extractLsb' lo' n' = 0#n' := by
  ext k hk
  simp [getLsbD_place, f.getLsbD_of_ge _ (show n ≤ lo' + k - lo by omega)]

/-- A word's own bits, put back where they were read. -/
theorem place_extractLsb' (lo n : Nat) : place (w.extractLsb' lo n) lo = w &&& place (BitVec.allOnes n) lo := by
  ext k hk
  rw [← BitVec.getLsbD_eq_getElem, ← BitVec.getLsbD_eq_getElem, BitVec.getLsbD_and, getLsbD_place, getLsbD_place]
  by_cases h : lo ≤ k
  · simp [h, hk, Bool.and_comm]
  · simp [h]

@[simp] theorem place_fieldR : place (regBits (fieldR w)) 9 = w &&& 0x0E00#16 := place_extractLsb' w 9 3
@[simp] theorem place_fieldB : place (regBits (fieldB w)) 6 = w &&& 0x01C0#16 := place_extractLsb' w 6 3
@[simp] theorem place_fieldT : place (regBits (fieldT w)) 0 = w &&& 0x0007#16 := place_extractLsb' w 0 3
@[simp] theorem place_fieldMask : place (fieldMask w) 9 = w &&& 0x0E00#16 := place_extractLsb' w 9 3
@[simp] theorem place_fieldOff9 : place (fieldOff9 w) 0 = w &&& 0x01FF#16 := place_extractLsb' w 0 9
@[simp] theorem place_fieldOff11 : place (fieldOff11 w) 0 = w &&& 0x07FF#16 := place_extractLsb' w 0 11
@[simp] theorem place_fieldOff6 : place (fieldOff6 w) 0 = w &&& 0x003F#16 := place_extractLsb' w 0 6
@[simp] theorem place_fieldImm5 : place (fieldImm5 w) 0 = w &&& 0x001F#16 := place_extractLsb' w 0 5
@[simp] theorem place_fieldVect8 : place (fieldVect8 w) 0 = w &&& 0x00FF#16 := place_extractLsb' w 0 8

/-- The mode bit of ADD and AND as a field of one bit (R71). -/
theorem immMode_eq : immMode w = (w.extractLsb' 5 1 == 1#1) := w.getLsbD_eq_extractLsb' 5

/-- The mode bit of opcode 4 as a field of one bit (R71). -/
theorem jsrMode_eq : jsrMode w = (w.extractLsb' 11 1 == 1#1) := w.getLsbD_eq_extractLsb' 11

variable {w}

/-- What a word holds in its top four bits (R61). -/
theorem and_opcode {op : BitVec 4} (h : opcodeOf w = op) : w &&& 0xF000#16 = place op 12 := by
  rw [← h]
  exact (place_extractLsb' w 12 4).symm

/-- What a word holds in its top four bits and a mode bit (R71). -/
theorem and_opcode_mode {op : BitVec 4} {b : Bool} (h : opcodeOf w = op) (hb : w.getLsbD lo = b) :
    w &&& (0xF000#16 ||| place 1#1 lo) = place op 12 ||| place (BitVec.ofBool b) lo := by
  have hmode : BitVec.ofBool b = w.extractLsb' lo 1 := by
    ext k hk
    obtain rfl : k = 0 := by omega
    simp [hb]
  rw [BitVec.and_or_distrib_left, and_opcode h, hmode, place_extractLsb']
  rfl

end

/-! ### The words of an instruction (R62, R72, R74) -/

/-- The instruction is well-formed, and the word agrees with its encoding on every bit it does not leave out of
account. -/
def IsWordOf (w : Word) (i : Instr) : Prop :=
  i.wellFormed = true ∧ encode i &&& ~~~ dontCare i = w &&& ~~~ dontCare i

theorem opcodeOf_encode {i : Instr} (hi : i.wellFormed = true) : opcodeOf (encode i) = opcode i := by
  cases i
  exacts [Laws.EncodedOpcode.br _ _ hi, Laws.EncodedOpcode.addReg _ _ _ hi, Laws.EncodedOpcode.addImm _ _ _ hi,
    Laws.EncodedOpcode.ld _ _ hi, Laws.EncodedOpcode.st _ _ hi, Laws.EncodedOpcode.jsr _ hi,
    Laws.EncodedOpcode.jsrr _ hi, Laws.EncodedOpcode.andReg _ _ _ hi, Laws.EncodedOpcode.andImm _ _ _ hi,
    Laws.EncodedOpcode.ldr _ _ _ hi, Laws.EncodedOpcode.str _ _ _ hi, Laws.EncodedOpcode.rti _ hi,
    Laws.EncodedOpcode.not _ _ hi, Laws.EncodedOpcode.ldi _ _ hi, Laws.EncodedOpcode.sti _ _ hi,
    Laws.EncodedOpcode.jmp _ hi, Laws.EncodedOpcode.res _ hi, Laws.EncodedOpcode.lea _ _ hi,
    Laws.EncodedOpcode.trap _ hi]

/-- A word of an instruction has the encoding's bits in every field that is no don't-care bit. -/
theorem IsWordOf.extractLsb'_eq {w : Word} {i : Instr} (h : IsWordOf w i) {lo n : Nat}
    (hm : (~~~ dontCare i).extractLsb' lo n = BitVec.allOnes n) :
    w.extractLsb' lo n = (encode i).extractLsb' lo n := by
  simpa [BitVec.extractLsb'_and, hm] using congrArg (BitVec.extractLsb' lo n) h.2.symm

/-- The opcode is never a don't-care bit. -/
theorem IsWordOf.opcodeOf_eq {w : Word} {i : Instr} (h : IsWordOf w i) : opcodeOf w = opcode i := by
  have hm : (~~~ dontCare i).extractLsb' 12 4 = BitVec.allOnes 4 := by cases i <;> simp [dontCare]
  exact (h.extractLsb'_eq hm).trans (opcodeOf_encode h.1)

/-- Every word of an instruction decodes to it: its opcode, its mode bit and its fields are those of the encoding. -/
theorem IsWordOf.decode_eq {w : Word} {i : Instr} (h : IsWordOf w i) : decode w = i := by
  have hop := h.opcodeOf_eq
  have field {lo n} := h.extractLsb'_eq (lo := lo) (n := n)
  cases i <;> simp only [opcode, encode, dontCare] at hop field
  case rti => simpa [decode_op8 hop] using field (lo := 0) (n := 16) rfl
  case res => simpa [decode_op13 hop] using field (lo := 0) (n := 16) rfl
  case br => simp [decode_op0 hop, fieldMask, fieldOff9, field, BitVec.extractLsb'_or]
  case addReg | addImm =>
    simp [decode_op1 hop, decodeAdd, immMode_eq, fieldR, fieldB, fieldT, fieldImm5, regField, field,
      BitVec.extractLsb'_or]
  case andReg | andImm =>
    simp [decode_op5 hop, decodeAnd, immMode_eq, fieldR, fieldB, fieldT, fieldImm5, regField, field,
      BitVec.extractLsb'_or]
  case jsr | jsrr =>
    simp [decode_op4 hop, decodeJsr, jsrMode_eq, fieldB, fieldOff11, regField, field, BitVec.extractLsb'_or]
  case ld | st | ldi | sti | lea =>
    simp [decode_op2, decode_op3, decode_op10, decode_op11, decode_op14, hop, fieldR, fieldOff9, regField, field,
      BitVec.extractLsb'_or]
  case ldr | str =>
    simp [decode_op6, decode_op7, hop, fieldR, fieldB, fieldOff6, regField, field, BitVec.extractLsb'_or]
  case not => simp [decode_op9 hop, fieldR, fieldB, regField, field, BitVec.extractLsb'_or]
  case jmp => simp [decode_op12 hop, fieldB, regField, field, BitVec.extractLsb'_or]
  case trap => simp [decode_op15 hop, fieldVect8, field, BitVec.extractLsb'_or]

/-- The fixed bits `c` and the word's own bits under `p` make up the word under `m`, when `c` is what the word holds
under `f` and no bit of `m` is left over. -/
theorem or_and_eq_of_fixed {w c f p m : Word} (hc : w &&& f = c &&& m) (hm : f ||| p &&& m = m) :
    (c ||| w &&& p) &&& m = w &&& m := by
  rw [BitVec.and_or_distrib_right, ← hc, BitVec.and_assoc, ← BitVec.and_or_distrib_left, hm]

/-- A word of ADD or AND: the opcode and bit 5 are fixed. -/
theorem isWordOf_decode_of_immMode {w : Word} (h : opcodeOf w = 1#4 ∨ opcodeOf w = 5#4) : IsWordOf w (decode w) := by
  rcases h with h | h <;> cases hb : immMode w
  all_goals
    simp only [decode_op1, decode_op5, h, decodeAdd, decodeAnd, hb, Bool.false_eq_true, if_true, if_false, IsWordOf,
      Instr.wellFormed, true_and, encode, dontCare, place_fieldR, place_fieldB, place_fieldT, place_fieldImm5,
      BitVec.or_assoc, ← BitVec.and_or_distrib_left]
    exact or_and_eq_of_fixed (and_opcode_mode h hb) (by decide)

/-- A word of JSR or JSRR: the opcode and bit 11 are fixed. -/
theorem isWordOf_decode_of_jsrMode {w : Word} (h : opcodeOf w = 4#4) : IsWordOf w (decode w) := by
  cases hb : jsrMode w
  all_goals
    simp only [decode_op4 h, decodeJsr, hb, Bool.false_eq_true, if_true, if_false, IsWordOf, Instr.wellFormed,
      true_and, encode, dontCare, place_fieldB, place_fieldOff11]
    exact or_and_eq_of_fixed (and_opcode_mode h hb) (by decide)

/-- Every word is a word of what it decodes to: outside opcodes 1, 4, 5 (mode bit) and 8, 13 (whole word) the opcode
is fixed and the fields are the word's own bits. -/
theorem isWordOf_decode (w : Word) : IsWordOf w (decode w) := by
  rcases opcode_cases w with h | h | h | h | h | h | h | h | h | h | h | h | h | h | h | h
  on_goal 14 => rw [decode_op13 h]; exact ⟨beq_iff_eq.mpr h, rfl⟩
  on_goal 9 => rw [decode_op8 h]; exact ⟨beq_iff_eq.mpr h, rfl⟩
  on_goal 6 => exact isWordOf_decode_of_immMode (.inr h)
  on_goal 5 => exact isWordOf_decode_of_jsrMode h
  on_goal 2 => exact isWordOf_decode_of_immMode (.inl h)
  all_goals
    simp only [decode_op0, decode_op2, decode_op3, decode_op6, decode_op7, decode_op9, decode_op10, decode_op11,
      decode_op12, decode_op14, decode_op15, h, IsWordOf, Instr.wellFormed, true_and, encode, dontCare, place_fieldMask,
      place_fieldOff9, place_fieldR, place_fieldB, place_fieldOff6, place_fieldVect8, BitVec.or_assoc,
      ← BitVec.and_or_distrib_left]
    exact or_and_eq_of_fixed (and_opcode h) (by decide)

/-- Settles O1: the encoding of a well-formed instruction is a word of it. -/
theorem decodeOfEncodeIsIdentity : Obligations.DecodeOfEncodeIsIdentity := fun _ hi => IsWordOf.decode_eq ⟨hi, rfl⟩

/-- Settles O2: every word is a word of what it decodes to. -/
theorem encodeOfDecodeKeepsEveryNamedBit : Obligations.EncodeOfDecodeKeepsEveryNamedBit := isWordOf_decode

theorem and_eq_of_xor_and_eq_zero {w v m : Word} (h : (w ^^^ v) &&& m = 0#16) : w &&& m = v &&& m := by
  rw [← BitVec.toNat_inj] at h ⊢
  simpa [Nat.and_xor_distrib_right] using h

/-- Settles O3: a word that differs from `w` in don't-care bits alone is a word of what `w` decodes to; RTI and RES
carry the word to their fault's record. -/
theorem dontCareBitsAreIgnored : Obligations.DontCareBitsAreIgnored := by
  refine ⟨fun w v h => ?_, fun w s h => ?_, fun w s h => ?_⟩
  · obtain ⟨hi, hw⟩ := isWordOf_decode w
    exact IsWordOf.decode_eq ⟨hi, hw.trans (and_eq_of_xor_and_eq_zero h)⟩
  · rw [decode_op8 h, exec_rti, State.enter]
  · rw [decode_op13 h, exec_res, State.enter]

/-! ### The words that fault (R73) -/

/-- No step follows the fault. -/
theorem step_of_endedByFault {s : State} (h : s.endedByFault) : ¬ ∃ t, step s = .next t := by
  obtain ⟨opcode, word, addr, hp⟩ := h
  simp [step, hp]

/-- From phase RUNNING the words of opcodes 8 and 13 fault, and no others. -/
theorem exec_decode_endedByFault_iff {w : Word} {s t : State} (hs : s.phase = .running)
    (ht : exec (decode w) s = .next t) : t.endedByFault ↔ opcodeOf w = 8#4 ∨ opcodeOf w = 13#4 := by
  constructor
  · intro hf
    by_contra hop
    have hi (u : Word) : decode w ≠ .rti u ∧ decode w ≠ .res u :=
      ⟨fun hd => hop (.inl (hd ▸ isWordOf_decode w).opcodeOf_eq),
        fun hd => hop (.inr (hd ▸ isWordOf_decode w).opcodeOf_eq)⟩
    obtain ⟨_, _, _, hp⟩ := (effect_of_exec ht).endedByFault hi hf
    cases hs.symm.trans hp
  · rintro (h | h)
    · rw [decode_op8 h, exec_rti] at ht
      cases ht
      exact ⟨_, _, _, rfl⟩
    · rw [decode_op13 h, exec_res] at ht
      cases ht
      exact ⟨_, _, _, rfl⟩

/-- The words of one opcode are 4096 words in a row (R61). -/
theorem opcodeOf_eq_iff_range {w : Word} {op : BitVec 4} :
    opcodeOf w = op ↔ 4096 * op.toNat ≤ w.toNat ∧ w.toNat ≤ 4096 * op.toNat + 4095 := by
  have htop : (opcodeOf w).toNat = w.toNat / 4096 := by
    rw [opcodeOf, BitVec.extractLsb'_toNat, Nat.shiftRight_eq_div_pow]
    omega
  rw [← BitVec.toNat_inj, htop]
  omega

/-- Settles O4, by the opcode of the word. -/
theorem illegalEncodingsAreExactlyOpcodes8And13 : Obligations.IllegalEncodingsAreExactlyOpcodes8And13 := by
  intro w s hs
  obtain ⟨t, ht, -⟩ := exec_effect (decode w) s
  refine ⟨t, ht, ?_, step_of_endedByFault⟩
  rw [exec_decode_endedByFault_iff hs ht, opcodeOf_eq_iff_range, opcodeOf_eq_iff_range]
  rfl

/-- Settles O5, by evaluation of the decoder on the twelve words. -/
theorem sampleWordsDecode : Obligations.SampleWordsDecode := by
  unfold Obligations.SampleWordsDecode
  decide

end Sys2Proof.Machine

/-! The statements of 40_cycle.md: the fetch, the instruction a running step runs, and when the engine has a step. -/

namespace Sys2Proof.Machine

/-! ### When the engine has a step (R94, R96) -/

/-- No step in a terminal phase, and in WAIT_INPUT only one that takes a pending character (R94, R160). -/
theorem not_terminal_not_stuck_of_step {s t : State} (h : step s = .next t) :
    s.phase.terminal = false ∧ ¬ s.stuck := by
  rcases step_cases h with ⟨hp, -⟩ | ⟨k, hp, hw⟩ | ⟨a, pk, hp, -⟩
  · simp [hp, Phase.terminal, State.stuck]
  · obtain ⟨c, rest, hq, -⟩ := State.waitInputStep_cases hw
    simp [hp, hq, Phase.terminal, State.stuck]
  · simp [hp, Phase.terminal, State.stuck]

/-- By the phase: an instruction always completes, a string routine always reads its cell, and a wait that is not stuck
has a character to take. -/
theorem exists_step_of_not_stuck {s : State} (ht : s.phase.terminal = false) (hs : ¬ s.stuck) :
    ∃ t, step s = .next t := by
  cases hp : s.phase with
  | running => exact everyInstructionCompletes.2 s hp
  | waitInput k =>
    obtain ⟨c, rest, hq⟩ := List.exists_cons_of_ne_nil fun hq => hs ⟨⟨k, hp⟩, hq⟩
    exact ⟨_, (step_waitInput hp).trans (State.waitInputStep_cons k hq)⟩
  | stringOut a pk => exact ⟨_, step_stringOut hp⟩
  | halted | faulted | aborted => simp [hp, Phase.terminal] at ht

/-- A stuck state is in WAIT_INPUT, so the host may still append to INQ (R96). -/
theorem State.stuck.not_terminal {s : State} (h : s.stuck) : s.phase.terminal = false := by
  obtain ⟨⟨k, hp⟩, -⟩ := h
  simp [hp, Phase.terminal]

/-- Settles O40: the engine's step by its phase, and an arrival, after which INQ is not empty. -/
theorem stepExistsUnlessTerminalOrWaiting : Obligations.StepExistsUnlessTerminalOrWaiting := by
  intro s
  refine ⟨⟨fun ⟨_, h⟩ => not_terminal_not_stuck_of_step h, fun ⟨ht, hs⟩ => exists_step_of_not_stuck ht hs⟩,
    fun h c => ?_⟩
  have hlifted : ¬ State.stuck { s with inq := s.inq ++ [c] } := fun ⟨_, hq⟩ => List.concat_ne_nil c s.inq hq
  exact ⟨_, apply_input h.not_terminal c, exists_step_of_not_stuck h.not_terminal hlifted⟩

/-! ### The fetch and the instruction it gives (R90 to R93) -/

/-- Settles O38: the fetch is MemRead at pc followed by the wrapping increment. -/
theorem fetchReadsThenIncrements : Obligations.FetchReadsThenIncrements := fun s hp =>
  ⟨rfl, by rw [State.fetch_pc]; exact BitVec.toNat_add s.pc 1#16, rfl, step_running hp⟩

/-- The decoder gives well-formed instructions only (R72). -/
theorem decode_wellFormed (w : Word) : (decode w).wellFormed = true := (encodeOfDecodeKeepsEveryNamedBit w).1

/-- Settles O39: away from KBSR by `State.fetch_of_ne`; at KBSR the fetched word is the one the poll leaves there, 0x0000
or 0x8000. -/
theorem stepRunsTheDecodedInstruction : Obligations.StepRunsTheDecodedInstruction := by
  intro s hp
  refine ⟨decode_wellFormed s.fetch.1, step_running hp, fun hk => ?_, fun hk hq => ?_, fun hk hq => ?_⟩
  · rw [step_running hp, State.fetch_of_ne hk, State.setPc]
  · have hw : s.fetch.1 = 0x0000#16 := State.memRead_kbsr_nil hk hq
    rw [hw]
    rfl
  · obtain ⟨c, rest, hcr⟩ := List.exists_cons_of_ne_nil hq
    have hw : s.fetch.1 = 0x8000#16 := State.memRead_kbsr_cons hk hcr
    rw [hw, decode_op8 rfl]

end Sys2Proof.Machine

/-! The statement of 41_branch.md: when BR is taken, and what it leaves unchanged. -/

namespace Sys2Proof.Machine

/-- The table of R100: the code of N, Z or P picks one bit of the mask (log 2), and that of NONE picks none. -/
theorem State.branchTaken_iff (s : State) (mask : BitVec 3) :
    s.branchTaken mask = true ↔
      (mask.getLsbD 2 = true ∧ s.cond = .n) ∨ (mask.getLsbD 1 = true ∧ s.cond = .z) ∨
        (mask.getLsbD 0 = true ∧ s.cond = .p) := by
  rw [State.branchTaken]
  revert mask
  cases s.cond <;> decide

/-- Settles O19: BR's meaning is a test of `State.branchTaken`, and a taken branch writes pc alone. -/
theorem brTestsTheMask : Obligations.BrTestsTheMask := by
  refine ⟨fun _ hop => decode_op0 hop, fun mask off9 s => ?_⟩
  rw [← State.branchTaken_iff, exec_br]
  exact ⟨fun htaken => congrArg Host.Outcome.next (if_pos htaken), fun hnot => congrArg Host.Outcome.next (if_neg hnot)⟩

end Sys2Proof.Machine

/-! The statements of 42_arithmetic.md: the results of ADD, AND and NOT, the flags they set, and their frame. -/

namespace Sys2Proof.Machine

/-! ### ADD and AND by their mode bit (30_encoding.md R71) -/

section
variable {w : Word}

theorem decode_addReg (hop : opcodeOf w = 1#4) (hmode : immMode w = false) :
    decode w = .addReg (fieldR w) (fieldB w) (fieldT w) := by simp [decode_op1 hop, decodeAdd, hmode]
theorem decode_addImm (hop : opcodeOf w = 1#4) (hmode : immMode w = true) :
    decode w = .addImm (fieldR w) (fieldB w) (fieldImm5 w) := by simp [decode_op1 hop, decodeAdd, hmode]
theorem decode_andReg (hop : opcodeOf w = 5#4) (hmode : immMode w = false) :
    decode w = .andReg (fieldR w) (fieldB w) (fieldT w) := by simp [decode_op5 hop, decodeAnd, hmode]
theorem decode_andImm (hop : opcodeOf w = 5#4) (hmode : immMode w = true) :
    decode w = .andImm (fieldR w) (fieldB w) (fieldImm5 w) := by simp [decode_op5 hop, decodeAnd, hmode]

end

/-! ### A result written to a register with the flags (10_state.md R24) -/

/-- Writing `v` to `dr` with the flags classifies `v` and changes nothing but `dr` and the flags. -/
theorem State.setRegCC_frame (s : State) (dr : Reg) (v : Word) :
    SignClass ((s.setRegCC dr v).reg dr) (s.setRegCC dr v).cond ∧ RegsBut [dr] s (s.setRegCC dr v) ∧
    (s.setRegCC dr v).pc = s.pc ∧ CellsBut [] s (s.setRegCC dr v) ∧ ChannelsKept s (s.setRegCC dr v) ∧
    ControlKept s (s.setRegCC dr v) := by
  have hflags : SignClass ((s.setRegCC dr v).reg dr) (s.setRegCC dr v).cond := by
    rw [State.setRegCC_reg_same, State.setRegCC_cond]
    exact condOf_signClass v
  have hregs : RegsBut [dr] s (s.setRegCC dr v) := fun r hr =>
    s.setRegCC_reg_other (List.mem_singleton.not.mp hr) v
  have hcells : CellsBut [] s (s.setRegCC dr v) := fun a _ => by rw [State.setRegCC_mem]
  exact ⟨hflags, hregs, s.setRegCC_pc dr v, hcells, ⟨s.setRegCC_inq dr v, s.setRegCC_outq dr v⟩,
    s.setRegCC_phase dr v, s.setRegCC_params dr v⟩

/-! ### The five instructions (R110 to R114) -/

/-- Settles O7: the sum is written by `State.setRegCC`, and word addition is modulo 2^16. -/
theorem addRegisterAddsModulo : Obligations.AddRegisterAddsModulo := by
  refine ⟨fun _ hop hmode => decode_addReg hop hmode, fun dr sr1 sr2 s =>
    ⟨_, exec_addReg s dr sr1 sr2, ?_, s.setRegCC_frame dr _⟩⟩
  rw [State.setRegCC_reg_same]
  exact BitVec.toNat_add _ _

/-- Settles O8: the sum with the extended immediate is written by `State.setRegCC`. -/
theorem addImmediateAddsModulo : Obligations.AddImmediateAddsModulo :=
  ⟨fun _ hop hmode => decode_addImm hop hmode, fun dr sr1 imm5 s =>
    ⟨_, exec_addImm s dr sr1 imm5, s.setRegCC_reg_same dr _, s.setRegCC_frame dr _⟩⟩

/-- Settles O9: the conjunction, taken bit by bit, is written by `State.setRegCC`. -/
theorem andRegisterIsBitwise : Obligations.AndRegisterIsBitwise := by
  refine ⟨fun _ hop hmode => decode_andReg hop hmode, fun dr sr1 sr2 s =>
    ⟨_, exec_andReg s dr sr1 sr2, fun k => ?_, s.setRegCC_frame dr _⟩⟩
  rw [State.setRegCC_reg_same]
  exact BitVec.getLsbD_and

/-- Settles O10: the conjunction with the extended immediate is written by `State.setRegCC`. -/
theorem andImmediateIsBitwise : Obligations.AndImmediateIsBitwise :=
  ⟨fun _ hop hmode => decode_andImm hop hmode, fun dr sr1 imm5 s =>
    ⟨_, exec_andImm s dr sr1 imm5, s.setRegCC_reg_same dr _, s.setRegCC_frame dr _⟩⟩

/-- Settles O11: the complement is written by `State.setRegCC`, and the complement of a word is its distance from the
greatest word. -/
theorem notComplements : Obligations.NotComplements := by
  refine ⟨fun _ hop => decode_op9 hop, fun dr sr s => ⟨_, exec_not s dr sr, ?_, s.setRegCC_frame dr _⟩⟩
  rw [State.setRegCC_reg_same]
  exact BitVec.toNat_not

end Sys2Proof.Machine

/-! The statements of 43_load_store.md: where LD, LDR, LDI and LEA get the value they write, where ST, STR and STI store,
and what each leaves unchanged. -/

namespace Sys2Proof.Machine

/-! ### Outcomes and frames put together -/

/-- The outcome of a read is about no part of the state it leaves but memory and the pending input. -/
theorem ReadOutcome.of_eq {s t u : State} {a v : Word} (h : ReadOutcome s a v t) (hinq : u.inq = t.inq)
    (hmem : u.mem = t.mem) : ReadOutcome s a v u := by
  simpa only [ReadOutcome, CellsBut, hinq, hmem] using h

theorem CellsBut.trans {s t u : State} {xs ys : List Word} (h : CellsBut ys s t) (h' : CellsBut xs t u) :
    CellsBut (xs ++ ys) s u := by
  intro a ha
  rw [List.mem_append, not_or] at ha
  obtain ⟨hx, hy⟩ := ha
  exact (h' a hx).trans (h a hy)

/-- A read keeps registers, pc, output, phase and parameters, so a frame of the state it leaves is one of the state before. -/
theorem State.frame_of_touch {s t : State} {a : Word} {rs : List Reg}
    (h : RegsBut rs (s.touch a) t ∧ t.pc = (s.touch a).pc ∧ t.outq = (s.touch a).outq ∧ ControlKept (s.touch a) t) :
    RegsBut rs s t ∧ t.pc = s.pc ∧ t.outq = s.outq ∧ ControlKept s t := by
  simpa only [RegsBut, ControlKept, State.touch_reg, State.touch_pc, State.touch_outq, State.touch_phase,
    State.touch_params] using h

/-- A load has the outcome of its read, and beyond it writes `dr` and the flags alone. -/
theorem State.loadFrom_frame (s : State) (dr : Reg) (a : Word) :
    ReadOutcome s a ((s.loadFrom dr a).reg dr) (s.loadFrom dr a) ∧
    SignClass ((s.loadFrom dr a).reg dr) (s.loadFrom dr a).cond ∧ RegsBut [dr] s (s.loadFrom dr a) ∧
    (s.loadFrom dr a).pc = s.pc ∧ (s.loadFrom dr a).outq = s.outq ∧ ControlKept s (s.loadFrom dr a) := by
  rw [State.loadFrom_eq, ← State.memRead_fst]
  obtain ⟨hflags, hregs, hpc, -, ⟨hinq, houtq⟩, hcontrol⟩ := (s.touch a).setRegCC_frame dr (s.memRead a).1
  refine ⟨?_, hflags, State.frame_of_touch ⟨hregs, hpc, houtq, hcontrol⟩⟩
  rw [State.setRegCC_reg_same]
  exact (s.memRead_outcome a).of_eq hinq ((s.touch a).setRegCC_mem dr _)

/-- A store puts the value at its address and changes nothing else. -/
theorem State.memWrite_frame (s : State) (a v : Word) :
    (s.memWrite a v).mem.read a = v ∧ CellsBut [a] s (s.memWrite a v) ∧ RegsBut [] s (s.memWrite a v) ∧
    (s.memWrite a v).pc = s.pc ∧ (s.memWrite a v).cond = s.cond ∧ ChannelsKept s (s.memWrite a v) ∧
    ControlKept s (s.memWrite a v) := by
  obtain ⟨hsame, hcells, -⟩ := memWriteIsAPlainStore s a v
  exact ⟨hsame, hcells, fun r _ => s.memWrite_reg a v r, s.memWrite_pc a v, s.memWrite_cond a v,
    ⟨s.memWrite_inq a v, s.memWrite_outq a v⟩, s.memWrite_phase a v, s.memWrite_params a v⟩

/-! ### The loads (R120, R122, R124) and LEA (R126) -/

/-- Settles O12: LD is a load from pc plus the offset. -/
theorem ldLoadsPcRelative : Obligations.LdLoadsPcRelative :=
  ⟨fun _ hop => decode_op2 hop, fun dr off9 s => ⟨_, exec_ld s dr off9, s.loadFrom_frame dr _⟩⟩

/-- Settles O14: LDR is a load whose address is computed before the destination is written. -/
theorem ldrLoadsBaseOffset : Obligations.LdrLoadsBaseOffset :=
  ⟨fun _ hop => decode_op6 hop, fun dr base off6 s => ⟨_, exec_ldr s dr base off6, s.loadFrom_frame dr _⟩⟩

/-- Settles O16: LDI is a load in the state the pointer read leaves, which differs from the first in memory and pending
input alone. -/
theorem ldiLoadsThroughPointer : Obligations.LdiLoadsThroughPointer := by
  refine ⟨fun _ hop => decode_op10 hop, fun dr off9 s => ⟨_, exec_ldi s dr off9, ?_⟩⟩
  obtain ⟨hread, hflags, hframe⟩ := (s.touch (s.pcRelative off9)).loadFrom_frame dr (s.memRead (s.pcRelative off9)).1
  exact ⟨hread, hflags, State.frame_of_touch hframe⟩

/-- Settles O18: the address itself is written by `State.setRegCC`, which reads no cell. -/
theorem leaLoadsTheAddress : Obligations.LeaLoadsTheAddress :=
  ⟨fun _ hop => decode_op14 hop, fun dr off9 s =>
    ⟨_, exec_lea s dr off9, s.setRegCC_reg_same dr _, s.setRegCC_frame dr _⟩⟩

/-! ### The stores (R121, R123, R125) -/

/-- Settles O13: ST is a store at pc plus the offset. -/
theorem stStoresPcRelative : Obligations.StStoresPcRelative :=
  ⟨fun _ hop => decode_op3 hop, fun sr off9 s => ⟨_, exec_st s sr off9, s.memWrite_frame _ _⟩⟩

/-- Settles O15: STR is a store at the base plus the offset. -/
theorem strStoresBaseOffset : Obligations.StrStoresBaseOffset :=
  ⟨fun _ hop => decode_op7 hop, fun sr base off6 s => ⟨_, exec_str s sr base off6, s.memWrite_frame _ _⟩⟩

/-- Settles O17: STI is a store in the state the pointer read leaves: the state before it away from KBSR, the polled state
at KBSR. -/
theorem stiStoresThroughPointer : Obligations.StiStoresThroughPointer := by
  refine ⟨fun _ hop => decode_op11 hop, fun sr off9 s => ⟨_, exec_sti s sr off9, ?_⟩⟩
  rw [State.pcRelative, sext]
  generalize s.pc + off9.signExtend 16 = ptr
  obtain ⟨hstored, hcells, hregs, hpc, hcond, ⟨hinq, houtq⟩, hcontrol⟩ :=
    (s.touch ptr).memWrite_frame (s.memRead ptr).1 (s.reg sr)
  obtain ⟨hregs, hpc, houtq, hcontrol⟩ := State.frame_of_touch ⟨hregs, hpc, houtq, hcontrol⟩
  refine ⟨hstored, hcells, fun hne => ?_, fun hkbsr => ?_, hregs, hpc, hcond.trans (s.touch_cond ptr), houtq, hcontrol⟩
  · rw [State.memRead_of_ne hne, State.touch_of_ne hne] at hcells hinq ⊢
    exact ⟨rfl, hcells, hinq⟩
  · subst hkbsr
    rw [State.touch_kbsr] at hcells hinq ⊢
    exact ⟨s.poll_cellsBut.trans hcells, hinq.trans s.poll_inq⟩

end Sys2Proof.Machine

/-! The statements of 44_jump.md: where JSR, JSRR and JMP continue, the return address a call leaves in R7, what each
leaves unchanged, and the round trip of a call and its return. -/

namespace Sys2Proof.Machine

/-! ### Opcode 4 by its mode bit (30_encoding.md R71) -/

theorem decode_jsr {w : Word} (hop : opcodeOf w = 4#4) (hmode : jsrMode w = true) : decode w = .jsr (fieldOff11 w) := by
  simp [decode_op4 hop, decodeJsr, hmode]
theorem decode_jsrr {w : Word} (hop : opcodeOf w = 4#4) (hmode : jsrMode w = false) : decode w = .jsrr (fieldB w) := by
  simp [decode_op4 hop, decodeJsr, hmode]

/-! ### A jump and a call (R140 to R142) -/

/-- A jump writes pc alone. -/
theorem State.setPc_frame (s : State) (target : Word) :
    (s.setPc target).pc = target ∧ RegsBut [] s (s.setPc target) ∧ (s.setPc target).cond = s.cond ∧
    CellsBut [] s (s.setPc target) ∧ ChannelsKept s (s.setPc target) ∧ ControlKept s (s.setPc target) :=
  ⟨s.setPc_pc target, fun r _ => s.setPc_reg target r, s.setPc_cond target, fun a _ => by rw [State.setPc_mem],
    ⟨s.setPc_inq target, s.setPc_outq target⟩, s.setPc_phase target, s.setPc_params target⟩

/-- A call leaves the incremented pc in R7 and beyond it writes pc alone. -/
theorem State.link_setPc_frame (s : State) (target : Word) :
    (s.link.setPc target).reg 7 = s.pc ∧ (s.link.setPc target).pc = target ∧ RegsBut [7] s (s.link.setPc target) ∧
    (s.link.setPc target).cond = s.cond ∧ CellsBut [] s (s.link.setPc target) ∧
    ChannelsKept s (s.link.setPc target) ∧ ControlKept s (s.link.setPc target) := by
  obtain ⟨hpc, -, hframe⟩ := s.link.setPc_frame target
  exact ⟨s.setReg_reg_same 7 s.pc, hpc, fun r hr => s.link_reg_other (List.mem_singleton.not.mp hr), hframe⟩

/-- The base register as JSRR reads it, after R7 is written (90_conflicts.md C3). -/
theorem State.link_reg (s : State) (base : Reg) : s.link.reg base = if base = 7 then s.pc else s.reg base :=
  s.setReg_reg 7 base s.pc

/-! ### The three instructions -/

/-- Settles O20: JSR is a call at pc plus the offset. -/
theorem jsrLinksAndJumps : Obligations.JsrLinksAndJumps :=
  ⟨fun _ hop hmode => decode_jsr hop hmode, fun off11 s => ⟨_, exec_jsr s off11, s.link_setPc_frame _⟩⟩

/-- Settles O21: JSRR is a call at the base register as it stands after the link. -/
theorem jsrrLinksThenReadsItsBase : Obligations.JsrrLinksThenReadsItsBase := by
  refine ⟨fun _ hop hmode => decode_jsrr hop hmode, fun base s => ⟨_, exec_jsrr s base, ?_⟩⟩
  rw [← State.link_reg]
  exact s.link_setPc_frame (s.link.reg base)

/-- Settles O22: JMP is a jump to the base register. -/
theorem jmpGoesToItsBase : Obligations.JmpGoesToItsBase :=
  ⟨fun _ hop => decode_op12 hop, fun base s => ⟨_, exec_jmp s base, s.setPc_frame _⟩⟩

/-! ### A call and its return (R143) -/

/-- Away from KBSR a running step is the meaning of the instruction in the cell at pc, with pc incremented
(40_cycle.md R90). -/
theorem step_of_decode {s : State} {i : Instr} (hp : s.phase = .running) (hk : s.pc ≠ s.params.kbsrAddr)
    (hi : decode (s.mem.read s.pc) = i) : step s = exec i (s.setPc (s.pc + 1#16)) := by
  rw [step_running hp, State.fetch_of_ne hk, hi]

/-- After a call, whatever pc has become, JMP R7 continues at the linked address. -/
theorem exec_ret_of_link (s : State) (v : Word) : exec .ret (s.link.setPc v) = .next (s.link.setPc s.pc) := by
  have hreg : (s.link.setPc v).reg 7 = s.pc := s.setReg_reg_same 7 s.pc
  rw [Instr.ret, exec_jmp, hreg]
  rfl

/-- Settles O53: JSR leaves memory and the device addresses alone, so JMP R7 is fetched from its target, and its jump to the
linked address replaces the pc of the call. -/
theorem callReturnRoundTrip : Obligations.CallReturnRoundTrip := by
  intro s off11 hp hk hkTarget hcall hreturn
  let fetched := s.setPc (s.pc + 1#16)
  let target := s.pc + 1#16 + sext off11
  have hjsr : step s = .next (fetched.link.setPc target) := step_of_decode hp hk hcall
  have hjmp : step (fetched.link.setPc target) = .next (fetched.link.setPc (s.pc + 1#16)) :=
    (step_of_decode (s := fetched.link.setPc target) hp hkTarget hreturn).trans
      (exec_ret_of_link fetched (target + 1#16))
  obtain ⟨hlink, hpc, hframe⟩ := fetched.link_setPc_frame (s.pc + 1#16)
  exact ⟨_, (runFor_next hjsr 1).trans (runFor_next hjmp 0), hpc, hlink, hframe⟩

end Sys2Proof.Machine

/-! The statements of 45_trap.md: what TRAP does for each vector and what it leaves unchanged, the WAIT_INPUT and
STRING_OUT steps, and GETC, IN, PUTS and PUTSP from their fetch to their end. -/

namespace Sys2Proof.Machine

/-! ### The dispatcher (R150, R151, R158) -/

/-- The byte a character output emits, as the conversion of a word to a byte. -/
theorem lowByte_eq_setWidth (v : Word) : lowByte v = v.setWidth 8 :=
  (BitVec.setWidth_eq_extractLsb' (by decide)).symm

/-- No vector outside 0x20..0x25 is mapped. -/
theorem State.serviceRoutine_unmapped {v : Byte} (hv : v.toNat < 0x20 ∨ 0x25 < v.toNat) (s : State) :
    s.serviceRoutine v = s := by
  have hne : ∀ m : Byte, 0x20 ≤ m.toNat ∧ m.toNat ≤ 0x25 → v ≠ m := by rintro m ⟨hlo, hhi⟩ rfl; omega
  unfold State.serviceRoutine
  rw [if_neg (hne _ (by decide)), if_neg (hne _ (by decide)), if_neg (hne _ (by decide)), if_neg (hne _ (by decide)),
    if_neg (hne _ (by decide)), if_neg (hne _ (by decide))]

/-- Settles O24: no service routine writes anything but the phase and the output. -/
theorem trapSavesNothing : Obligations.TrapSavesNothing := fun v s =>
  ⟨_, exec_trap s v, fun r _ => s.serviceRoutine_reg v r, s.serviceRoutine_pc v, s.serviceRoutine_cond v,
    fun a _ => by rw [State.serviceRoutine_mem], s.serviceRoutine_inq v, s.serviceRoutine_params v⟩

/-- Settles O23: a mapped vector computes to its routine, and the others are `State.serviceRoutine_unmapped`. -/
theorem trapDispatchesByVector : Obligations.TrapDispatchesByVector := by
  refine ⟨fun _ hop => decode_op15 hop, fun s => ⟨rfl, ?_, rfl, rfl, rfl, rfl, fun v hv => ?_⟩⟩
  · rw [← lowByte_eq_setWidth]
    rfl
  · rw [exec_trap, State.serviceRoutine_unmapped hv]

/-- Settles O25: the step away from KBSR is the meaning of TRAP after the fetch. -/
theorem unmappedVectorsDoNothing : Obligations.UnmappedVectorsDoNothing := by
  intro s v hp hk hv hunmapped
  rw [step_of_decode hp hk hv, exec_trap, State.serviceRoutine_unmapped hunmapped]
  rfl

/-! ### The WAIT_INPUT step (R160) -/

theorem echoBytes_eq (k : InputKind) (c : Byte) : echoBytes k c = if k = .inEcho then [c] else [] := by
  cases k <;> rfl

/-- With a character pending the WAIT_INPUT step writes R0, takes the character, echoes it for IN, and runs on. -/
theorem step_waitInput_cons {s : State} {k : InputKind} (hp : s.phase = .waitInput k) {c : Byte} {rest : List Byte}
    (hq : s.inq = c :: rest) :
    ∃ t, step s = .next t ∧ t.reg 0 = c.zeroExtend 16 ∧ t.inq = rest ∧ t.phase = .running ∧
      t.outq = s.outq ++ echoBytes k c ∧ RegsBut [0] s t ∧ t.pc = s.pc ∧ t.cond = s.cond ∧ CellsBut [] s t ∧
      t.params = s.params :=
  ⟨_, (step_waitInput hp).trans (State.waitInputStep_cons k hq), s.setReg_reg_same 0 (charWord c), rfl, rfl, rfl,
    fun _ hr => s.setReg_reg_other (List.mem_singleton.not.mp hr) (charWord c), rfl, rfl, fun _ _ => rfl, rfl⟩

theorem step_waitInput_nil {s : State} {k : InputKind} (hp : s.phase = .waitInput k) (hq : s.inq = []) :
    step s = .fault (.waitingForInput k) :=
  (step_waitInput hp).trans (State.waitInputStep_nil k hq)

/-- Settles O31, by the two equations of `State.waitInputStep`. -/
theorem waitInputTakesTheOldestCharacter : Obligations.WaitInputTakesTheOldestCharacter := by
  refine fun s k hp => ⟨step_waitInput_nil hp, fun c rest hq => ?_⟩
  obtain ⟨t, ht, hr0, hinq, hphase, houtq, hframe⟩ := step_waitInput_cons hp hq
  refine ⟨t, ht, hr0, hinq, hphase, ?_, hframe⟩
  rw [houtq, echoBytes_eq, apply_ite (s.outq ++ ·), List.append_nil]

/-! ### GETC and IN (R152, R155) -/

/-- The state a GETC (no output) or an IN (the prompt) enters its wait in. -/
def State.awaiting (s : State) (bs : List Byte) (k : InputKind) : State :=
  { s with pc := s.pc + 1#16, outq := s.outq ++ bs, phase := .waitInput k }

section
variable {s : State} {bs : List Byte} {k : InputKind} (hstep : step s = .next (s.awaiting bs k))
include hstep

theorem runFor_two_of_awaiting_nil (hq : s.inq = []) : runFor 2 s = .fault (.waitingForInput k) :=
  (runFor_next hstep 1).trans (runFor_fault (step_waitInput_nil (s := s.awaiting bs k) rfl hq) 0)

/-- With a character pending the second step of the routine ends it. -/
theorem runFor_two_of_awaiting_cons (hp : s.phase = .running) {c : Byte} {rest : List Byte} (hq : s.inq = c :: rest) :
    ∃ t, runFor 2 s = .next t ∧ t.reg 0 = c.zeroExtend 16 ∧ t.inq = rest ∧ t.outq = s.outq ++ bs ++ echoBytes k c ∧
      t.pc = s.pc + 1#16 ∧ RegsBut [0] s t ∧ t.cond = s.cond ∧ CellsBut [] s t ∧ ControlKept s t := by
  obtain ⟨t, ht, hr0, hinq, hphase, houtq, hregs, hpc, hcond, hcells, hparams⟩ :=
    step_waitInput_cons (s := s.awaiting bs k) rfl hq
  exact ⟨t, (runFor_next hstep 1).trans (runFor_next ht 0), hr0, hinq, houtq, hpc, hregs, hcond, hcells,
    hphase.trans hp.symm, hparams⟩

end

/-- Settles O33: GETC awaits its character with nothing emitted, and does not echo it. -/
theorem getcReadsOneCharacter : Obligations.GetcReadsOneCharacter := by
  intro s hp hk hi
  have hstep : step s = .next (s.awaiting [] .getc) := by
    rw [step_of_decode hp hk hi, State.awaiting, List.append_nil]
    rfl
  refine ⟨runFor_two_of_awaiting_nil hstep, fun c rest hq => ?_⟩
  simpa [echoBytes] using runFor_two_of_awaiting_cons hstep hp hq

/-- Settles O34: IN awaits its character with the prompt emitted, and echoes it. -/
theorem inPromptsReadsAndEchoes : Obligations.InPromptsReadsAndEchoes := by
  intro s hp hk hi
  have hstep : step s = .next (s.awaiting s.params.inPrompt .inEcho) := step_of_decode hp hk hi
  exact ⟨fun hq => ⟨hstep, runFor_two_of_awaiting_nil hstep hq⟩, fun _ _ => runFor_two_of_awaiting_cons hstep hp⟩

/-! ### The STRING_OUT step (R159) -/

theorem cellBytes_eq (pk : Bool) (v : Word) :
    cellBytes pk v = [lowByte v] ++ if pk = true ∧ highByte v ≠ 0#8 then [highByte v] else [] := by
  unfold cellBytes
  split_ifs <;> simp_all

theorem State.emitString_nil (s : State) : s.emitString [] = s := by
  rw [State.emitString, List.append_nil]

/-- After the read of one cell, output and a new phase leave the rest of the state as the read leaves it. -/
theorem State.touch_emitString_enter_frame (s : State) (a : Word) (bs : List Byte) (p : Phase) :
    ReadOutcome s a (s.memRead a).1 (((s.touch a).emitString bs).enter p) ∧
    (((s.touch a).emitString bs).enter p).outq = s.outq ++ bs ∧
    RegsBut [] s (((s.touch a).emitString bs).enter p) ∧ (((s.touch a).emitString bs).enter p).pc = s.pc ∧
    (((s.touch a).emitString bs).enter p).cond = s.cond ∧ (((s.touch a).emitString bs).enter p).params = s.params :=
  ⟨(s.memRead_outcome a).of_eq rfl rfl, congrArg (· ++ bs) (s.touch_outq a), fun r _ => s.touch_reg a r, s.touch_pc a,
    s.touch_cond a, s.touch_params a⟩

/-- Settles O32: a zero cell leaves the state of its read but for the phase, any other emits `cellBytes` as well. -/
theorem stringOutEmitsOneCell : Obligations.StringOutEmitsOneCell := by
  intro s a pk hp
  rw [step_stringOut hp]
  by_cases hv : (s.memRead a).1 = 0#16
  · obtain ⟨hread, houtq, hframe⟩ := s.touch_emitString_enter_frame a [] .running
    rw [State.emitString_nil] at hread houtq hframe
    exact ⟨_, State.stringOutStep_zero pk hv, hread, fun _ => ⟨rfl, houtq.trans (List.append_nil _)⟩,
      fun hne => absurd hv hne, hframe⟩
  · obtain ⟨hread, houtq, hframe⟩ :=
      s.touch_emitString_enter_frame a (cellBytes pk (s.memRead a).1) (.stringOut (a + 1#16) pk)
    refine ⟨_, State.stringOutStep_nonzero pk hv, hread, fun hz => absurd hz hv, fun _ => ⟨rfl, ?_⟩, hframe⟩
    rw [houtq, cellBytes_eq, ← List.append_assoc]
    rfl

/-! ### PUTS and PUTSP (R154, R156) -/

theorem step_stringOut_zero {s : State} {a : Word} {pk : Bool} (hp : s.phase = .stringOut a pk)
    (ha : a ≠ s.params.kbsrAddr) (hz : s.mem.read a = 0#16) : step s = .next (s.enter .running) := by
  rw [step_stringOut hp, State.stringOutStep_zero pk (by rwa [State.memRead_of_ne ha]), State.touch_of_ne ha]

theorem step_stringOut_nonzero {s : State} {a : Word} {pk : Bool} (hp : s.phase = .stringOut a pk)
    (ha : a ≠ s.params.kbsrAddr) (hnz : s.mem.read a ≠ 0#16) :
    step s = .next ((s.emitString (cellBytes pk (s.mem.read a))).enter (.stringOut (a + 1#16) pk)) := by
  rw [step_stringOut hp, State.stringOutStep_nonzero pk (by rwa [State.memRead_of_ne ha]), State.touch_of_ne ha,
    State.memRead_of_ne ha]

/-- What a scan of the `n` cells from `a` emits. -/
def stringBytes (packed : Bool) (m : Memory) (a : Word) (n : Nat) : List Byte :=
  (List.range n).flatMap fun k => cellBytes packed (m.read (a + BitVec.ofNat 16 k))

theorem stringBytes_succ (pk : Bool) (m : Memory) (a : Word) (n : Nat) :
    stringBytes pk m a (n + 1) = stringBytes pk m a n ++ cellBytes pk (m.read (a + BitVec.ofNat 16 n)) := by
  simp [stringBytes, List.range_succ]

/-- `s` with the `n` cells from `a` emitted, about to read the cell after them. -/
def State.scanning (s : State) (packed : Bool) (a : Word) (n : Nat) : State :=
  { s with outq := s.outq ++ stringBytes packed s.mem a n, phase := .stringOut (a + BitVec.ofNat 16 n) packed }

theorem State.scanning_succ (s : State) (pk : Bool) (a : Word) (n : Nat) :
    s.scanning pk a (n + 1) = ((s.scanning pk a n).emitString (cellBytes pk (s.mem.read (a + BitVec.ofNat 16 n)))).enter
      (.stringOut (a + BitVec.ofNat 16 n + 1#16) pk) := by
  rw [State.scanning, stringBytes_succ, BitVec.ofNat_add, ← BitVec.add_assoc, ← List.append_assoc]
  rfl

/-- From the start of a scan, `n` steps over non-zero cells clear of KBSR emit these `n` cells. -/
theorem runFor_scanning {s : State} {pk : Bool} {a : Word} {n : Nat}
    (hk : ∀ k < n, a + BitVec.ofNat 16 k ≠ s.params.kbsrAddr)
    (hnz : ∀ k < n, s.mem.read (a + BitVec.ofNat 16 k) ≠ 0#16) :
    runFor n (s.scanning pk a 0) = .next (s.scanning pk a n) := by
  induction n with
  | zero => rfl
  | succ n ih =>
    have hprefix := ih (fun k hlt => hk k (hlt.trans n.lt_succ_self)) (fun k hlt => hnz k (hlt.trans n.lt_succ_self))
    have hstep : step (s.scanning pk a n) = .next (s.scanning pk a (n + 1)) := by
      rw [State.scanning_succ]
      exact step_stringOut_nonzero (s := s.scanning pk a n) rfl (hk n n.lt_succ_self) (hnz n n.lt_succ_self)
    exact (runFor_add hprefix 1).trans (runFor_next hstep 0)

/-- A string routine whose TRAP step has entered the scan at R0 ends in `n + 2` steps when cell `n` is the first zero cell
and no cell up to it is KBSR. -/
theorem runFor_stringRoutine {s : State} {pk : Bool} {n : Nat} (hp : s.phase = .running)
    (hstep : step s = .next { s with pc := s.pc + 1#16, phase := .stringOut (s.reg 0) pk })
    (hk : ∀ k, k ≤ n → s.reg 0 + BitVec.ofNat 16 k ≠ s.params.kbsrAddr)
    (hnz : ∀ k, k < n → s.mem.read (s.reg 0 + BitVec.ofNat 16 k) ≠ 0#16)
    (hz : s.mem.read (s.reg 0 + BitVec.ofNat 16 n) = 0#16) :
    runFor (n + 2) s =
      .next { s with pc := s.pc + 1#16, outq := s.outq ++ stringBytes pk s.mem (s.reg 0) n } := by
  let fetched := s.setPc (s.pc + 1#16)
  have hfirst : step s = .next (fetched.scanning pk (s.reg 0) 0) := by
    rw [hstep, State.scanning, stringBytes, List.range_zero, List.flatMap_nil, List.append_nil, BitVec.add_zero]
    rfl
  have hcells : runFor n (fetched.scanning pk (s.reg 0) 0) = .next (fetched.scanning pk (s.reg 0) n) :=
    runFor_scanning (s := fetched) (fun k hlt => hk k hlt.le) hnz
  have hlast : step (fetched.scanning pk (s.reg 0) n) = .next ((fetched.scanning pk (s.reg 0) n).enter .running) :=
    step_stringOut_zero rfl (hk n le_rfl) hz
  calc runFor (n + 2) s = runFor (n + 1) (fetched.scanning pk (s.reg 0) 0) := runFor_next hfirst (n + 1)
    _ = runFor 1 (fetched.scanning pk (s.reg 0) n) := runFor_add hcells 1
    _ = .next ((fetched.scanning pk (s.reg 0) n).enter .running) := runFor_next hlast 0
    _ = _ := by rw [← hp]; rfl

/-- Settles O35: PUTS is a string routine that emits the low byte of each cell. -/
theorem putsEmitsUpToTheZeroCell : Obligations.PutsEmitsUpToTheZeroCell := by
  intro n s hp hk hi hclear hnz hz
  have hbytes : stringBytes false s.mem (s.reg 0) n =
      (List.range n).map fun k => (s.mem.read (s.reg 0 + BitVec.ofNat 16 k)).extractLsb' 0 8 :=
    List.map_eq_flatMap.symm
  rw [← hbytes]
  exact runFor_stringRoutine hp (step_of_decode hp hk hi) hclear hnz hz

theorem cellBytes_packed (v : Word) :
    cellBytes true v = if highByte v = 0#8 then [lowByte v] else [lowByte v, highByte v] := by
  rw [cellBytes_eq]
  split_ifs <;> simp_all

/-- Settles O36: PUTSP is a string routine that emits a cell as `cellBytes_packed` says. -/
theorem putspEmitsPackedCells : Obligations.PutspEmitsPackedCells := by
  intro n s hp hk hi hclear hnz hz
  have hrun := runFor_stringRoutine hp (step_of_decode hp hk hi) hclear hnz hz
  simp only [stringBytes, cellBytes_packed] at hrun
  exact hrun

end Sys2Proof.Machine

/-! The statement of 46_undefined.md: RTI and RES. -/

namespace Sys2Proof.Machine

/-- Settles O26: both opcodes decode to an instruction that carries the word, and its meaning only enters the fault phase. -/
theorem undefinedOpcodesTakeTheirFault : Obligations.UndefinedOpcodesTakeTheirFault :=
  ⟨fun _ => decode_op8, fun _ => decode_op13, fun w s => ⟨exec_rti s w, exec_res s w⟩⟩

end Sys2Proof.Machine

/-! The statements of 60_exceptions.md: the precise fault, the host's moves between steps, and the hang. -/

namespace Sys2Proof.Machine

/-! ### The precise fault (R184) -/

/-- A running step that faults is the fetch of a word of opcode 8 or 13, followed by a change of phase; the later steps of
the service routines go on to RUNNING or STRING_OUT. -/
theorem fetch_enter_of_step_endedByFault {s t : State} (h : step s = .next t) (hf : t.endedByFault) :
    s.phase = .running ∧ (opcodeOf s.fetch.1 = 8#4 ∨ opcodeOf s.fetch.1 = 13#4) ∧ ∃ p, t = s.fetch.2.enter p := by
  rcases step_cases h with ⟨hp, he⟩ | ⟨k, -, hw⟩ | ⟨a, pk, -, ho⟩
  · have hop := (exec_decode_endedByFault_iff (s.fetch_phase.trans hp) he).mp hf
    refine ⟨hp, hop, ?_⟩
    rcases hop with h8 | h13
    · rw [decode_op8 h8, exec_rti] at he
      exact ⟨_, (Host.Outcome.next.inj he).symm⟩
    · rw [decode_op13 h13, exec_res] at he
      exact ⟨_, (Host.Outcome.next.inj he).symm⟩
  · obtain ⟨c, rest, -, rfl⟩ := State.waitInputStep_cases hw
    simp [State.endedByFault] at hf
  · rcases State.stringOutStep_cases ho with ⟨-, rfl⟩ | ⟨-, rfl⟩ <;> simp [State.endedByFault] at hf

/-- Settles O48: the frame is the fetch's, which away from KBSR only increments pc. -/
theorem faultsArePrecise : Obligations.FaultsArePrecise := by
  intro s t h hf
  obtain ⟨hp, hop, p, rfl⟩ := fetch_enter_of_step_endedByFault h hf
  refine ⟨hp, hop, rfl, fun r _ => ?_, s.fetch_pc, s.fetch_cond, s.fetch_outq, fun hk => ?_⟩
  · rw [State.enter_reg, State.fetch_snd, State.setPc_reg, State.touch_reg]
  · rw [State.fetch_of_ne hk]
    exact ⟨fun _ _ => rfl, rfl⟩

/-! ### The host's moves (R192, R199) -/

theorem State.abort_eq_some {s t : State} : s.abort = some t ↔ s.phase.terminal = false ∧ t = s.enter .aborted := by
  simp [State.abort, eq_comm (a := t)]

theorem State.inputArrival_eq_some {s t : State} {c : Byte} :
    s.inputArrival c = some t ↔ s.phase.terminal = false ∧ t = { s with inq := s.inq ++ [c] } := by
  simp [State.inputArrival, eq_comm (a := t)]

/-- Settles O58, by the guard of both moves. -/
theorem hostMovesActBetweenSteps : Obligations.HostMovesActBetweenSteps :=
  fun _ _ => ⟨fun h => ⟨State.abort_eq_some.mpr ⟨h, rfl⟩, State.inputArrival_eq_some.mpr ⟨h, rfl⟩⟩,
    fun h => ⟨if_pos h, if_pos h⟩⟩

/-! ### The hang (R198, R94, R96) -/

/-- A terminal phase admits no move, of the engine or of the host. -/
theorem Move.not_terminal_of_apply {m : Move} {s t : State} (h : m.apply s = some t) : s.phase.terminal = false := by
  cases m with
  | engine => exact (not_terminal_not_stuck_of_step (apply_engine.mp h)).1
  | input c => exact (State.inputArrival_eq_some.mp h).1
  | abort => exact (State.abort_eq_some.mp h).1

theorem runFor_one (s : State) : runFor 1 s = step s := by
  rw [runFor]
  cases step s <;> rfl

/-- Two successive states of a run by the engine alone are one step apart. -/
theorem step_of_runFor_succ {s t u : State} {k : Nat} (ht : runFor k s = .next t) (hu : runFor (k + 1) s = .next u) :
    step t = .next u := by
  rw [← runFor_one, ← runFor_add ht, hu]

/-- A state the engine steps from for ever begins a hang with no host move: its k-th state is where `runFor k` ends. -/
theorem State.hangs.exists_hang {s : State} (h : s.hangs) : ∃ ex : Nat → State, ex 0 = s ∧ Hang (fun _ => .engine) ex := by
  choose ex hex using h
  refine ⟨ex, (Host.Outcome.next.inj (hex 0)).symm, fun k => ?_, fun k => ⟨k, le_rfl, rfl⟩⟩
  exact apply_engine.mpr (step_of_runFor_succ (hex k) (hex (k + 1)))

/-- Settles O60: every state of a hang admits a move, so none is terminal; one the engine moves from is not stuck, and after
every point there is one. -/
theorem aHangNeverEnds : Obligations.AHangNeverEnds := by
  refine ⟨fun moves ex ⟨hex, hfair⟩ => ⟨fun k => Move.not_terminal_of_apply (hex k), fun k => ?_⟩,
    fun s h => h.exists_hang⟩
  obtain ⟨j, hkj, hj⟩ := hfair k
  have hstep : step (ex j) = .next (ex (j + 1)) := apply_engine.mp (hj ▸ hex j)
  exact ⟨j, hkj, (not_terminal_not_stuck_of_step hstep).2⟩

end Sys2Proof.Machine
